-- ==== Sys2Proof/Word.lean ====
section
/-! DEFINITION. The word types of the involution16 core (00_scope.md R8, R10) and nothing else. -/

namespace Sys2Proof

/-- A 16-bit value: a register, an address, the program counter (R8, R21, R23). -/
abbrev Word := BitVec 16

/-- One memory cell, one instruction byte (R40, R60). -/
abbrev Byte := BitVec 8

/-- A field of an instruction: "one of the four 4-bit values extracted from a 2-byte instruction" (R13). -/
abbrev Nibble := BitVec 4

/-- The index of a general register, 0 to 15, one hex digit (R10, R21). -/
abbrev Reg := Fin 16

end Sys2Proof
end

