-- ==== Sys2Proof/Syntax.lean ====
section
/-! DEFINITION. The instructions of involution16: one constructor of `Instr` for each row of spec/opcode_table.json
(30_encoding.md R62, R63), the mnemonics and formats of those rows, the four fields of an encoded instruction (R60)
and the statements an assembler reads (R68). -/

namespace Sys2Proof

/-- The sixteen mnemonics, in the listing order of the opcode map (R63). -/
inductive Mnemonic where
  | add | sub | ror | rol | shr | shl | and | ora | mul | div | cmp | jeq | xri | srr | srm | brk
deriving DecidableEq, Repr

/-- The six formats (R62). -/
inductive Format where
  /-- three registers: destination, first source, second source -/
  | rrr
  /-- three registers: target and link, first compared, second compared -/
  | jrr
  /-- a register and an 8-bit immediate -/
  | ri8
  /-- two registers and the control, an index into the SRR table -/
  | rrk
  /-- data register, address register, an ignored field -/
  | rrm
  /-- two halt selectors, an ignored field -/
  | brk
deriving DecidableEq, Repr

/-- The decoder's output: four nibbles (R60, R61). -/
structure Fields where
  op : Nibble
  a : Nibble
  b : Nibble
  c : Nibble
deriving DecidableEq, Repr

/-- The instructions (R63). A register field is a `Reg`; `ctl`, the halt selectors and the ignored fields are nibbles
(R62, R64). The ignored field of `srm` and `brk` is kept, so that every byte pair is exactly one term (R60, R65). -/
inductive Instr where
  /-- R101 -/
  | add (a b c : Reg)
  /-- R102 -/
  | sub (a b c : Reg)
  /-- R103 -/
  | ror (a b c : Reg)
  /-- R104 -/
  | rol (a b c : Reg)
  /-- R105 -/
  | shr (a b c : Reg)
  /-- R106 -/
  | shl (a b c : Reg)
  /-- R107 -/
  | and (a b c : Reg)
  /-- R108 -/
  | ora (a b c : Reg)
  /-- R109 -/
  | mul (a b c : Reg)
  /-- R110 -/
  | div (a b c : Reg)
  /-- R111 -/
  | cmp (a b c : Reg)
  /-- R130 -/
  | jeq (a b c : Reg)
  /-- R140 -/
  | xri (a : Reg) (imm8 : Byte)
  /-- R142: `ctl` of 8 to 15 is a legal term that raises an error when executed (R65) -/
  | srr (a b : Reg) (ctl : Nibble)
  /-- R150: `c` is ignored -/
  | srm (a b : Reg) (c : Nibble)
  /-- R160, R161: `a` and `b` are selectors, `c` is ignored -/
  | brk (a b c : Nibble)
deriving DecidableEq, Repr

/-- One line as an assembler reads it, its operands already numbers (R68): a register is its index, an immediate its
value, the control of `srr` and the selectors of `brk` their digits. -/
structure AsmStmt where
  mnemonic : Mnemonic
  operands : List Nat
deriving DecidableEq, Repr

end Sys2Proof
end

