-- ==== Sys2Proof/Decode.lean ====
section
/-! DEFINITION. The decoder and the encoder (30_encoding.md R60 to R65), the opcode map (R63) and the bit fields they use. -/

namespace Sys2Proof

/-- v[7:4] (R61). -/
def hiNibble (v : Byte) : Nibble := v.extractLsb' 4 4

/-- v[3:0] (R61). -/
def loNibble (v : Byte) : Nibble := v.extractLsb' 0 4

/-- The byte {hi, lo}. -/
def joinNibbles (hi lo : Nibble) : Byte := hi ++ lo

/-- v[15:8]. -/
def highByte (v : Word) : Byte := v.extractLsb' 8 8

/-- v[7:0]. -/
def lowByte (v : Word) : Byte := v.extractLsb' 0 8

/-- The 16-bit value {hi, lo}. -/
def joinBytes (hi lo : Byte) : Word := hi ++ lo

/-- A nibble read as a register index (R64). -/
def regOf (n : Nibble) : Reg := n.toFin

/-- A register index as a nibble. -/
def nibbleOf (r : Reg) : Nibble := BitVec.ofFin r

/-- OPCODE_MAP: the mnemonic at each value of op (R63; D1 for the twelve values the source does not give, log 4). -/
def opcodeMap : Vector Mnemonic 16 :=
  #v[.add, .sub, .ror, .rol, .shr, .shl, .and, .ora, .mul, .div, .cmp, .jeq, .xri, .srr, .srm, .brk]

/-- The mnemonic that op selects: one for each of the sixteen values (R63, R66). -/
def Mnemonic.ofOpcode (op : Nibble) : Mnemonic := opcodeMap[op.toNat]'op.isLt

/-- The opcode value of each mnemonic (R63). -/
def Mnemonic.opcode : Mnemonic → Nibble
  | .add => 0x0
  | .sub => 0x1
  | .ror => 0x2
  | .rol => 0x3
  | .shr => 0x4
  | .shl => 0x5
  | .and => 0x6
  | .ora => 0x7
  | .mul => 0x8
  | .div => 0x9
  | .cmp => 0xA
  | .jeq => 0xB
  | .xri => 0xC
  | .srr => 0xD
  | .srm => 0xE
  | .brk => 0xF

/-- The decoder: "a pure function splitting 2 raw bytes into 4 nibble fields", "Pure, total, no error cases" (R60). -/
def decodeFields (byte0 byte1 : Byte) : Fields where
  op := hiNibble byte0
  a := loNibble byte0
  b := hiNibble byte1
  c := loNibble byte1

/-- The roles of the fields by format (R62): register indices, the immediate {b, c}, the control, the selectors. -/
def Fields.toInstr (f : Fields) : Instr :=
  match Mnemonic.ofOpcode f.op with
  | .add => .add (regOf f.a) (regOf f.b) (regOf f.c)
  | .sub => .sub (regOf f.a) (regOf f.b) (regOf f.c)
  | .ror => .ror (regOf f.a) (regOf f.b) (regOf f.c)
  | .rol => .rol (regOf f.a) (regOf f.b) (regOf f.c)
  | .shr => .shr (regOf f.a) (regOf f.b) (regOf f.c)
  | .shl => .shl (regOf f.a) (regOf f.b) (regOf f.c)
  | .and => .and (regOf f.a) (regOf f.b) (regOf f.c)
  | .ora => .ora (regOf f.a) (regOf f.b) (regOf f.c)
  | .mul => .mul (regOf f.a) (regOf f.b) (regOf f.c)
  | .div => .div (regOf f.a) (regOf f.b) (regOf f.c)
  | .cmp => .cmp (regOf f.a) (regOf f.b) (regOf f.c)
  | .jeq => .jeq (regOf f.a) (regOf f.b) (regOf f.c)
  | .xri => .xri (regOf f.a) (joinNibbles f.b f.c)
  | .srr => .srr (regOf f.a) (regOf f.b) f.c
  | .srm => .srm (regOf f.a) (regOf f.b) f.c
  | .brk => .brk f.a f.b f.c

/-- The instruction that a byte pair is (R60, R63). It rejects nothing: "No encoding is illegal or reserved" (R65). -/
def decode (byte0 byte1 : Byte) : Instr := (decodeFields byte0 byte1).toInstr

/-- The mnemonic of an instruction (R63). -/
def Instr.mnemonic : Instr → Mnemonic
  | .add _ _ _ => .add
  | .sub _ _ _ => .sub
  | .ror _ _ _ => .ror
  | .rol _ _ _ => .rol
  | .shr _ _ _ => .shr
  | .shl _ _ _ => .shl
  | .and _ _ _ => .and
  | .ora _ _ _ => .ora
  | .mul _ _ _ => .mul
  | .div _ _ _ => .div
  | .cmp _ _ _ => .cmp
  | .jeq _ _ _ => .jeq
  | .xri _ _ => .xri
  | .srr _ _ _ => .srr
  | .srm _ _ _ => .srm
  | .brk _ _ _ => .brk

/-- The nibbles a, b, c of an instruction (R61, R62). -/
def Instr.operandNibbles : Instr → Nibble × Nibble × Nibble
  | .add a b c => (nibbleOf a, nibbleOf b, nibbleOf c)
  | .sub a b c => (nibbleOf a, nibbleOf b, nibbleOf c)
  | .ror a b c => (nibbleOf a, nibbleOf b, nibbleOf c)
  | .rol a b c => (nibbleOf a, nibbleOf b, nibbleOf c)
  | .shr a b c => (nibbleOf a, nibbleOf b, nibbleOf c)
  | .shl a b c => (nibbleOf a, nibbleOf b, nibbleOf c)
  | .and a b c => (nibbleOf a, nibbleOf b, nibbleOf c)
  | .ora a b c => (nibbleOf a, nibbleOf b, nibbleOf c)
  | .mul a b c => (nibbleOf a, nibbleOf b, nibbleOf c)
  | .div a b c => (nibbleOf a, nibbleOf b, nibbleOf c)
  | .cmp a b c => (nibbleOf a, nibbleOf b, nibbleOf c)
  | .jeq a b c => (nibbleOf a, nibbleOf b, nibbleOf c)
  | .xri a imm8 => (nibbleOf a, hiNibble imm8, loNibble imm8)
  | .srr a b ctl => (nibbleOf a, nibbleOf b, ctl)
  | .srm a b c => (nibbleOf a, nibbleOf b, c)
  | .brk a b c => (a, b, c)

/-- The fields of an instruction (R61, R63). -/
def Instr.toFields (i : Instr) : Fields where
  op := i.mnemonic.opcode
  a := i.operandNibbles.1
  b := i.operandNibbles.2.1
  c := i.operandNibbles.2.2

/-- The encoder: the byte pair (byte0, byte1) of an instruction (R60, R61). -/
def encode (i : Instr) : Byte × Byte :=
  (joinNibbles i.toFields.op i.toFields.a, joinNibbles i.toFields.b i.toFields.c)

/-- The two bytes of the opcode table's number W = {byte0, byte1}: byte0 is bits 15:8 (R60). -/
def tableBytes (w : Nat) : Byte × Byte :=
  (highByte (BitVec.ofNat 16 w), lowByte (BitVec.ofNat 16 w))

/-- The instruction the decoder reads from the low `nbits` bits of W, the bits above them zero; none where the bits
do not fit the 2 bytes of an instruction (R67). -/
def decodeTableWord (nbits w : Nat) : Option Instr :=
  if w % 2 ^ nbits < 2 ^ 16 then
    some (decode (tableBytes (w % 2 ^ nbits)).1 (tableBytes (w % 2 ^ nbits)).2)
  else none

end Sys2Proof
end

