-- ==== Sys2Proof/Config.lean ====
section
/-! DEFINITION. The parameters of the core (00_scope.md R9, 92_eei_decisions.md "Open parameters").

The three OPEN parameters are opaque: nothing can be proved of their values, so a theorem about the model holds for
every value the spec allows. The parameters with a default have their types here and their values in
Machine/Params.lean. -/

namespace Sys2Proof

/-- The permutations of the byte positions 0 to 3 that are their own inverse: "exactly ten" (10_state.md R30). -/
inductive ByteInvolution where
  | identity
  | swap01 | swap02 | swap03 | swap12 | swap13 | swap23
  | swap01and23 | swap02and13 | swap03and12
deriving DecidableEq, Repr, Inhabited

/-- SHIFT_MODE, how `shr` and `shl` take their amount from a register (R105, R106, D7). -/
inductive ShiftMode where
  /-- the low nibble of x[c] -/
  | nibble
  /-- the whole of x[c]; 16 or more gives 0 -/
  | full
deriving DecidableEq, Repr, Inhabited

/-- ROT_WIDTH, the width of `ror` and `rol` (R103, R104, D6). -/
inductive RotWidth where
  | w32
  | w16
deriving DecidableEq, Repr, Inhabited

/-- MEM_WORD_ORDER, the byte order of the 16-bit value of `srm` (20_memory.md R44, D2). -/
inductive ByteOrder where
  /-- M[A] holds bits 7:0 -/
  | le
  /-- M[A] holds bits 15:8 -/
  | be
deriving DecidableEq, Repr, Inhabited

/-- The direction register's two values, +1 "step forward" and -1 "step backward" (10_state.md R25). -/
inductive Direction where
  | forward
  | backward
deriving DecidableEq, Repr, Inhabited

namespace Config

/-- SRR_TABLE: eight entries, each one of the ten involutions; the entries are OPEN (R30, D4). DESIGN CHOICE, log 1:
an opaque constant, safe. -/
opaque srrTable : Fin 8 → ByteInvolution

/-- SHIFT_MODE: OPEN (D7). DESIGN CHOICE, log 2: an opaque constant, safe. -/
opaque shiftMode : ShiftMode

/-- HOST_REVERSE_ADJUST: OPEN, on the host's side (D28): the pc the host writes when it reverses, from the old
direction and the old pc. DESIGN CHOICE, log 3: an opaque constant, safe. -/
opaque hostReverseAdjust : Direction → Word → Word

end Config

end Sys2Proof
end

