-- ==== Sys2Proof/Machine/Params.lean ====
section
/-! DEFINITION. The values of the parameters of 00_scope.md R9: the spec's defaults, and the opaque constants of
Config.lean for the OPEN ones. The meanings take a parameter from here and nowhere else. -/

namespace Sys2Proof.Machine

/-- MEM_WORD_ORDER = LE (D2; log 5, unsafe). -/
def memWordOrder : ByteOrder := .le

/-- ROT_WIDTH = 32 (D6, C3; log 7, unsafe). -/
def rotWidth : RotWidth := .w32

/-- CMP_SIGNED = false (D11; log 8, unsafe). -/
def cmpSigned : Bool := false

/-- SHIFT_MODE: OPEN (D7; log 2, safe). -/
def shiftMode : ShiftMode := Config.shiftMode

/-- The entry of SRR_TABLE at an index: OPEN (R30, D4; log 1, safe). -/
def srrEntry (k : Fin 8) : ByteInvolution := Config.srrTable k

/-- HOST_REVERSE_ADJUST: OPEN (D28; log 3, safe). -/
def hostReverseAdjust (oldDir : Direction) (oldPc : Word) : Word := Config.hostReverseAdjust oldDir oldPc

/-- The longest program image, 65535 bytes (R8, R232). -/
def maxImageLength : Nat := 65535

end Sys2Proof.Machine
end

