-- ==== Sys2Proof/Machine/State.lean ====
section
/-! DEFINITION. The architectural state (10_state.md R20), the ways a step can stop, and the state after reset (R31). -/

namespace Sys2Proof.Machine

/-- The three errors the core raises (R26, R200). -/
inductive CoreError where
  /-- the target of a `jeq` whose condition holds is odd -/
  | misalignedJump
  /-- the two bytes at the even target of a `jeq` whose condition holds differ from the `jeq`'s own -/
  | mismatchedJump
  /-- the control of an `srr` is 8 to 15 -/
  | invalidSrrEncoding
deriving DecidableEq, Repr

/-- The general registers x[0] to x[15] (R21). -/
abbrev RegFile := Vector Word 16

/-- The 65536 bytes of memory (20_memory.md R40) as the cells that do not hold the fill byte, addresses strictly
rising (Memory.wf); an unlisted address reads as the fill byte 0xFF (R31, R233). -/
abbrev Memory := List Host.Cell

/-- "The architectural state of the core is exactly" (R20) the first six fields. The seventh records the core's output. -/
structure State where
  /-- x[0] to x[15] (R21) -/
  regs : RegFile
  /-- the program counter, an unsigned byte address (R23) -/
  pc : Word
  /-- the direction register (R25) -/
  dir : Direction
  /-- the sticky error code; `none` is the spec's value none (R26) -/
  err : Option CoreError
  /-- the halt state (R27) -/
  halted : Bool
  /-- M[0] to M[0xFFFF] (R40) -/
  mem : Memory
  /-- the Dump(regs) events emitted to the host since reset, oldest first (R35, R160). DESIGN CHOICE, log 11: the
  spec's event is an output, recorded here; no meaning reads it -/
  dumps : List RegFile
deriving DecidableEq, Repr

/-- Why `step` gives no next state. Both are the core's having no step: "A model gives the core no step in those
states" (R28, R241, D18). Safe: nothing is concluded about a machine the spec says does not move. -/
inductive Fault where
  /-- Raised by `step` when err is not none, Halted(reason) (R28). Safe: the core has no step there. -/
  | haltedByError (reason : CoreError)
  /-- Raised by `step` when err is none and halted is true, Terminated (R28). Safe: the core has no step there. -/
  | terminated
deriving DecidableEq, Repr

/-- Why an operation is refused. No instruction's meaning answers with one. -/
inductive Refusal where
  /-- Raised by an arm of `exec` whose instruction has no meaning yet; no arm is one. Safe: it stops. -/
  | notModelled (mnemonic : String)
  /-- Raised by the host's image load when the image is longer than 65535 bytes (R232, D30). Safe: the spec refuses it. -/
  | imageTooLong
deriving DecidableEq, Repr

/-- The state after reset (R31, R230): every register 0, pc 0, direction forward, no error, not halted, every memory
byte the fill byte, no Dump event. -/
def State.reset : State where
  regs := Vector.replicate 16 0
  pc := 0
  dir := .forward
  err := none
  halted := false
  mem := []
  dumps := []

end Sys2Proof.Machine
end

