-- ==== Sys2Proof/Machine/Ops.lean ====
section
/-! DEFINITION. The named operations over memory, registers and status that every meaning is written with
(00_scope.md R11). -/

namespace Sys2Proof.Machine

/-! ### Memory -/

/-- The byte every cell holds at reset (70_reset_and_hazards.md R233). -/
def fillByte : Byte := 0xFF

/-- The byte at an address; an unlisted address holds the fill byte (R233). -/
def Memory.readAt : Memory → Nat → Byte
  | [], _ => fillByte
  | (k, v) :: rest, a => if k = a then v else Memory.readAt rest a

/-- The memory with `v` at address `a`, in canonical form: the fill byte is not listed. -/
def Memory.writeAt : Memory → Nat → Byte → Memory
  | [], a, v => if v = fillByte then [] else [(a, v)]
  | (k, w) :: rest, a, v =>
    if a < k then (if v = fillByte then (k, w) :: rest else (a, v) :: (k, w) :: rest)
    else if a = k then (if v = fillByte then rest else (k, v) :: rest)
    else (k, w) :: Memory.writeAt rest a v

/-- The bytes written one after another from address `a` on (R232). -/
def Memory.writeBytes : Memory → Nat → List Byte → Memory
  | m, _, [] => m
  | m, a, v :: vs => Memory.writeBytes (Memory.writeAt m a v) (a + 1) vs

/-- Every listed address is at least `lo`, below 65536 and above the one before it, and no entry is the fill byte. -/
def Memory.wfFrom : Nat → Memory → Bool
  | _, [] => true
  | lo, (k, v) :: rest => decide (lo ≤ k) && decide (k < 65536) && decide (v ≠ fillByte) && Memory.wfFrom (k + 1) rest

/-- The canonical form of memory. -/
def Memory.wf (m : Memory) : Bool := Memory.wfFrom 0 m

/-- M[a] (R40). -/
def State.readByte (s : State) (a : Word) : Byte := s.mem.readAt a.toNat

/-- M[a] <- v. -/
def State.writeByte (s : State) (a : Word) (v : Byte) : State := { s with mem := s.mem.writeAt a.toNat v }

/-- MemRead(a, 2): the bytes at a and a + 1, addresses modulo 65536 (R11, R42, R47). -/
def State.memRead2 (s : State) (a : Word) : Byte × Byte := (s.readByte a, s.readByte (a + 1))

/-- MemWrite(a, 2, [b0, b1]), addresses modulo 65536 (R11, R42, R47). -/
def State.memWrite2 (s : State) (a : Word) (b0 b1 : Byte) : State := (s.writeByte a b0).writeByte (a + 1) b1

/-- The 16-bit value of two bytes in memory order (20_memory.md R44). -/
def wordOfBytes (order : ByteOrder) (b : Byte × Byte) : Word :=
  match order with
  | .le => joinBytes b.2 b.1
  | .be => joinBytes b.1 b.2

/-- The two bytes, in memory order, of a 16-bit value (R44). -/
def bytesOfWord (order : ByteOrder) (v : Word) : Byte × Byte :=
  match order with
  | .le => (lowByte v, highByte v)
  | .be => (highByte v, lowByte v)

/-- Mem16Read(a) (R44). -/
def State.mem16Read (s : State) (a : Word) : Word := wordOfBytes memWordOrder (s.memRead2 a)

/-- Mem16Write(a, v) (R44). -/
def State.mem16Write (s : State) (a v : Word) : State :=
  s.memWrite2 a (bytesOfWord memWordOrder v).1 (bytesOfWord memWordOrder v).2

/-- Fetch(pc): the bytes (byte0, byte1) at pc and pc + 1, at any alignment (R42, R46, R60). -/
def State.fetch (s : State) : Byte × Byte := s.memRead2 s.pc

/-! ### Registers -/

/-- x[r] (R11, R21). -/
def State.reg (s : State) (r : Reg) : Word := s.regs[r.val]

/-- x[r] <- v (R11, R21). -/
def State.setReg (s : State) (r : Reg) (v : Word) : State := { s with regs := s.regs.set r.val v }

/-- x[r] <- x[r] ^ v: a result "is XORed into the destination, never assigned" (40_alu.md R100). -/
def State.xorReg (s : State) (r : Reg) (v : Word) : State := s.setReg r (s.reg r ^^^ v)

/-! ### Program counter and direction -/

/-- 2 * dir modulo 65536 (10_state.md R24, R25). -/
def stride : Direction → Word
  | .forward => 2
  | .backward => -2

/-- pc <- t (R11). -/
def State.setPc (s : State) (t : Word) : State := { s with pc := t }

/-- pc <- trunc_16(pc + 2 * dir) (R24). -/
def State.advance (s : State) : State := s.setPc (s.pc + stride s.dir)

/-! ### Errors, halt and events -/

/-- err <- e, and nothing else (R26). -/
def State.setErr (s : State) (e : Option CoreError) : State := { s with err := e }

/-- `raise e`: "no register, memory cell, dir or halted is written by that step; pc keeps the address of the raising
instruction" (60_exceptions.md R203). It is the core's whole exception entry: there is no handler, no saved pc, no
mode change (R204). -/
def State.raise (s : State) (e : CoreError) : State := s.setErr (some e)

/-- The way back from an error: there is no return instruction (R206); the host's repair writes err to none, which
returns the core to Running (70_reset_and_hazards.md R243). -/
def State.clearErr (s : State) : State := s.setErr none

/-- halted <- true (10_state.md R27). -/
def State.halt (s : State) : State := { s with halted := true }

/-- emit Dump(x[0], ..., x[15]) (44_break.md R160, D26). -/
def State.emitDump (s : State) : State := { s with dumps := s.dumps ++ [s.regs] }

end Sys2Proof.Machine
end

