-- ==== Sys2Proof/Machine/Flags.lean ====
section
/-! DEFINITION. Status. The core has no condition flags (10_state.md R29): "The only status state is err and
halted". Here are what is read off them (R28), the codes the host sees (R26, R25) and the three-way result that
`cmp` gives in place of flags (40_alu.md R111). -/

namespace Sys2Proof.Machine

/-- The three states of the engine (R28). -/
inductive EngineState where
  | running
  | haltedBy (reason : CoreError)
  | terminated
deriving DecidableEq, Repr

/-- The engine's state, "read off err and halted": Halted(reason) whenever err is not none, Terminated
when err is none and halted is true (R28). No step and no host operation makes both an error and halted hold (log 12). -/
def State.engine (s : State) : EngineState :=
  match s.err, s.halted with
  | some e, _ => .haltedBy e
  | none, true => .terminated
  | none, false => .running

/-- err as its 2-bit code (R26, D16). -/
def errCode : Option CoreError → BitVec 2
  | none => 0
  | some .misalignedJump => 1
  | some .mismatchedJump => 2
  | some .invalidSrrEncoding => 3

/-- dir as its one bit: 0 forward, 1 backward (R25, D29). -/
def dirBit : Direction → BitVec 1
  | .forward => 0
  | .backward => 1

/-- Whether x is greater than y, as unsigned numbers or as two's-complement ones (R111, D11). -/
def isGreater (signed : Bool) (x y : Word) : Bool := if signed then y.slt x else y.ult x

/-- The sign of x - y "mapped to 0, 1, 0xFFFF for equal/greater/less" (R111). -/
def threeWay (signed : Bool) (x y : Word) : Word :=
  if x = y then 0x0000 else if isGreater signed x y then 0x0001 else 0xFFFF

end Sys2Proof.Machine
end

