-- ==== Sys2Proof/Machine/Operands.lean ====
section
/-! DEFINITION. Operand forms (30_encoding.md R62, R64): the immediate, the amounts of rotates and shifts, the control
and the four bytes of `srr`, the address of `srm`, the target of `jeq`, the selectors of `brk`. -/

namespace Sys2Proof.Machine

/-- zext_16(imm8) (R64, R140, D12). -/
def immWord (imm8 : Byte) : Word := imm8.setWidth 16

/-- x[c][3:0], the amount of `ror` and `rol`, 0 to 15 (R103, R104). -/
def rotateAmount (vc : Word) : Nat := (vc.extractLsb' 0 4).toNat

/-- The amount of `shr` and `shl` (R105, R106): x[c][3:0] or all of x[c]. -/
def shiftAmount (mode : ShiftMode) (vc : Word) : Nat :=
  match mode with
  | .nibble => (vc.extractLsb' 0 4).toNat
  | .full => vc.toNat

/-- The control of `srr` as an index of the SRR table, legal 0 to 7 (R64, R142). -/
def srrIndex (ctl : Nibble) : Option (Fin 8) :=
  if h : ctl.toNat < 8 then some ⟨ctl.toNat, h⟩ else none

/-- p(0), p(1), p(2), p(3) of each involution (10_state.md R30). -/
def involutionImages : ByteInvolution → Vector (Fin 4) 4
  | .identity => #v[0, 1, 2, 3]
  | .swap01 => #v[1, 0, 2, 3]
  | .swap02 => #v[2, 1, 0, 3]
  | .swap03 => #v[3, 1, 2, 0]
  | .swap12 => #v[0, 2, 1, 3]
  | .swap13 => #v[0, 3, 2, 1]
  | .swap23 => #v[0, 1, 3, 2]
  | .swap01and23 => #v[1, 0, 3, 2]
  | .swap02and13 => #v[2, 3, 0, 1]
  | .swap03and12 => #v[3, 2, 1, 0]

/-- p(i). -/
def involutionAt (p : ByteInvolution) (i : Fin 4) : Fin 4 := (involutionImages p)[i.val]

/-- B[0] to B[3]: the bytes of x[a], low first, then those of x[b] (R142, D3). -/
def gatherBytes (va vb : Word) : Vector Byte 4 := #v[lowByte va, highByte va, lowByte vb, highByte vb]

/-- B'[i] = B[p(i)] (R142). -/
def permuteBytes (p : ByteInvolution) (b : Vector Byte 4) : Vector Byte 4 :=
  #v[b[(involutionAt p 0).val], b[(involutionAt p 1).val], b[(involutionAt p 2).val], b[(involutionAt p 3).val]]

/-- "the first 2 permuted bytes back to reg[a]": {B'[1], B'[0]} (R142, D3). -/
def firstWord (b : Vector Byte 4) : Word := joinBytes b[1] b[0]

/-- "the last 2 to reg[b]": {B'[3], B'[2]} (R142, D3). -/
def lastWord (b : Vector Byte 4) : Word := joinBytes b[3] b[2]

/-- The effective address of `srm`: "the register value, no offset, no scaling" (43_memory_swap.md R150). -/
def State.srmAddress (s : State) (b : Reg) : Word := s.reg b

/-- The target of `jeq`, x[a], "a full 16-bit register value, not pc-relative" (41_jump.md R130, R134). -/
def State.jeqTarget (s : State) (a : Reg) : Word := s.reg a

/-- t[0] = 1: the target is odd (R130). -/
def isOdd (t : Word) : Bool := t.getLsbD 0

/-- The selectors of `brk` that end the program: a = 0xF and b = 0xF (44_break.md R161). -/
def selectsHalt (a b : Nibble) : Bool := a == 0xF && b == 0xF

end Sys2Proof.Machine
end

