-- ==== Sys2Proof/Machine/Alu.lean ====
section
/-! DEFINITION. The ALU family: add, sub, ror, rol, shr, shl, and, ora, mul, div, cmp (40_alu.md R100 to R111). -/

namespace Sys2Proof.Machine

/-- The common form (R100): x[b], x[c] and x[a] read before any write, f's result XORed into x[a], pc advanced. -/
def State.aluWrite (s : State) (f : Word → Word → Word) (a b c : Reg) : State :=
  (s.xorReg a (f (s.reg b) (s.reg c))).advance

/-- R101. -/
def addFn (vb vc : Word) : Word := vb + vc

/-- R102: minuend x[b], subtrahend x[c] (D34). -/
def subFn (vb vc : Word) : Word := vb - vc

/-- R103: the rotate right of the zero-extended value at the width, low 16 bits kept. -/
def rorFn (width : RotWidth) (vb vc : Word) : Word :=
  match width with
  | .w32 =>
    ((vb.setWidth 32 >>> rotateAmount vc) ||| (vb.setWidth 32 <<< ((32 - rotateAmount vc) % 32))).setWidth 16
  | .w16 => (vb >>> rotateAmount vc) ||| (vb <<< ((16 - rotateAmount vc) % 16))

/-- R104: the rotate left. -/
def rolFn (width : RotWidth) (vb vc : Word) : Word :=
  match width with
  | .w32 =>
    ((vb.setWidth 32 <<< rotateAmount vc) ||| (vb.setWidth 32 >>> ((32 - rotateAmount vc) % 32))).setWidth 16
  | .w16 => (vb <<< rotateAmount vc) ||| (vb >>> ((16 - rotateAmount vc) % 16))

/-- R105: logical, zero fill (D8); an amount of 16 or more gives 0. -/
def shrFn (mode : ShiftMode) (vb vc : Word) : Word :=
  if 16 ≤ shiftAmount mode vc then 0 else vb >>> shiftAmount mode vc

/-- R106: "bits shifted past bit 15 are lost"; an amount of 16 or more gives 0. -/
def shlFn (mode : ShiftMode) (vb vc : Word) : Word :=
  if 16 ≤ shiftAmount mode vc then 0 else vb <<< shiftAmount mode vc

/-- R107. -/
def andFn (vb vc : Word) : Word := vb &&& vc

/-- R108: bitwise inclusive or. -/
def oraFn (vb vc : Word) : Word := vb ||| vc

/-- R109: the low 16 bits of the product (D9). -/
def mulFn (vb vc : Word) : Word := vb * vc

/-- R110, for a divisor that is not 0: the unsigned quotient, truncated (D10). -/
def divFn (vb vc : Word) : Word := vb / vc

/-- R111. -/
def cmpFn (signed : Bool) (vb vc : Word) : Word := threeWay signed vb vc

/-- `add` (R101). -/
def execAdd (a b c : Reg) (s : State) : Host.Outcome State Fault Refusal := .next (s.aluWrite addFn a b c)

/-- `sub` (R102). -/
def execSub (a b c : Reg) (s : State) : Host.Outcome State Fault Refusal := .next (s.aluWrite subFn a b c)

/-- `ror` (R103), at the width ROT_WIDTH. -/
def execRor (a b c : Reg) (s : State) : Host.Outcome State Fault Refusal := .next (s.aluWrite (rorFn rotWidth) a b c)

/-- `rol` (R104), at the width ROT_WIDTH. -/
def execRol (a b c : Reg) (s : State) : Host.Outcome State Fault Refusal := .next (s.aluWrite (rolFn rotWidth) a b c)

/-- `shr` (R105), its amount by SHIFT_MODE. -/
def execShr (a b c : Reg) (s : State) : Host.Outcome State Fault Refusal := .next (s.aluWrite (shrFn shiftMode) a b c)

/-- `shl` (R106), its amount by SHIFT_MODE. -/
def execShl (a b c : Reg) (s : State) : Host.Outcome State Fault Refusal := .next (s.aluWrite (shlFn shiftMode) a b c)

/-- `and` (R107). -/
def execAnd (a b c : Reg) (s : State) : Host.Outcome State Fault Refusal := .next (s.aluWrite andFn a b c)

/-- `ora` (R108). -/
def execOra (a b c : Reg) (s : State) : Host.Outcome State Fault Refusal := .next (s.aluWrite oraFn a b c)

/-- `mul` (R109). -/
def execMul (a b c : Reg) (s : State) : Host.Outcome State Fault Refusal := .next (s.aluWrite mulFn a b c)

/-- `div` (R110): "div is a no-op ... when reg[c] == 0", and the pc advances as after every instruction of the family. -/
def execDiv (a b c : Reg) (s : State) : Host.Outcome State Fault Refusal :=
  if s.reg c = 0 then .next s.advance else .next (s.aluWrite divFn a b c)

/-- `cmp` (R111), unsigned unless CMP_SIGNED. -/
def execCmp (a b c : Reg) (s : State) : Host.Outcome State Fault Refusal := .next (s.aluWrite (cmpFn cmpSigned) a b c)

end Sys2Proof.Machine
end

