-- ==== Sys2Proof/Machine/Break.lean ====
section
/-! DEFINITION. Break and halt: brk (44_break.md R160, R161). -/

namespace Sys2Proof.Machine

/-- `brk`: every one emits the dump (R160); with both selectors 0xF it then halts with pc at the `brk` (R161, D17),
otherwise it advances. The field c is ignored (D15). -/
def execBrk (a b _c : Nibble) (s : State) : Host.Outcome State Fault Refusal :=
  if selectsHalt a b then .next s.emitDump.halt else .next s.emitDump.advance

end Sys2Proof.Machine
end

