-- ==== Sys2Proof/Machine/Jump.lean ====
section
/-! DEFINITION. Control transfer: jeq (41_jump.md R130 to R134). -/

namespace Sys2Proof.Machine

/-- `jeq` (R130). Condition false: a no-op that advances. Otherwise the target is checked for alignment, then against
"the 2 bytes of the jump instruction currently executing" (its encoding; equal to the bytes fetched at pc whenever the
instruction was fetched there: DEDUCED, log 13), and only then is the link, the old pc, written and the target taken. -/
def execJeq (a b c : Reg) (s : State) : Host.Outcome State Fault Refusal :=
  if s.reg b ≠ s.reg c then .next s.advance
  else if isOdd (s.jeqTarget a) then .next (s.raise .misalignedJump)
  else if s.memRead2 (s.jeqTarget a) ≠ encode (.jeq a b c) then .next (s.raise .mismatchedJump)
  else .next ((s.setReg a s.pc).setPc (s.jeqTarget a))

end Sys2Proof.Machine
end

