-- ==== Sys2Proof/Machine/MemSwap.lean ====
section
/-! DEFINITION. Memory exchange: srm (43_memory_swap.md R150). -/

namespace Sys2Proof.Machine

/-- x[a] exchanged with the 16-bit value at x[b]: address, memory value and data are all read before any write (R150,
D32). -/
def State.exchange (s : State) (a b : Reg) : State :=
  (s.mem16Write (s.srmAddress b) (s.reg a)).setReg a (s.mem16Read (s.srmAddress b))

/-- `srm` (R150). The field c is ignored (D15). -/
def execSrm (a b : Reg) (_c : Nibble) (s : State) : Host.Outcome State Fault Refusal :=
  .next (s.exchange a b).advance

end Sys2Proof.Machine
end

