-- ==== Sys2Proof/Machine/XriSrr.lean ====
section
/-! DEFINITION. Register-immediate and byte-permute instructions: xri, srr (42_xri_srr.md R140 to R143). -/

namespace Sys2Proof.Machine

/-- `xri` (R140): x[a] <- x[a] ^ zext_16(imm8). -/
def execXri (a : Reg) (imm8 : Byte) (s : State) : Host.Outcome State Fault Refusal :=
  .next ((s.xorReg a (immWord imm8)).advance)

/-- x[a] and x[b] with their four bytes permuted; x[a] is written first and x[b] last, "so it stays when a = b"
(R142, D5). -/
def State.permuteRegs (s : State) (p : ByteInvolution) (a b : Reg) : State :=
  (s.setReg a (firstWord (permuteBytes p (gatherBytes (s.reg a) (s.reg b))))).setReg b
    (lastWord (permuteBytes p (gatherBytes (s.reg a) (s.reg b))))

/-- `srr` (R142): InvalidSrrEncoding when the control is no index of the table, otherwise the permutation. -/
def execSrr (a b : Reg) (ctl : Nibble) (s : State) : Host.Outcome State Fault Refusal :=
  match srrIndex ctl with
  | none => .next (s.raise .invalidSrrEncoding)
  | some k => .next (s.permuteRegs (srrEntry k) a b).advance

end Sys2Proof.Machine
end

