-- ==== Sys2Proof/Machine/Dispatch.lean ====
section
/-! DEFINITION. The dispatcher: one arm per opcode and no default arm (30_encoding.md R66). -/

namespace Sys2Proof.Machine

/-- The effect of one instruction, its pc advance included (R66). -/
def exec (i : Instr) (s : State) : Host.Outcome State Fault Refusal :=
  match i with
  | .add a b c => Sys2Proof.Machine.execAdd a b c s
  | .sub a b c => Sys2Proof.Machine.execSub a b c s
  | .ror a b c => Sys2Proof.Machine.execRor a b c s
  | .rol a b c => Sys2Proof.Machine.execRol a b c s
  | .shr a b c => Sys2Proof.Machine.execShr a b c s
  | .shl a b c => Sys2Proof.Machine.execShl a b c s
  | .and a b c => Sys2Proof.Machine.execAnd a b c s
  | .ora a b c => Sys2Proof.Machine.execOra a b c s
  | .mul a b c => Sys2Proof.Machine.execMul a b c s
  | .div a b c => Sys2Proof.Machine.execDiv a b c s
  | .cmp a b c => Sys2Proof.Machine.execCmp a b c s
  | .jeq a b c => Sys2Proof.Machine.execJeq a b c s
  | .xri a imm8 => Sys2Proof.Machine.execXri a imm8 s
  | .srr a b ctl => Sys2Proof.Machine.execSrr a b ctl s
  | .srm a b c => Sys2Proof.Machine.execSrm a b c s
  | .brk a b c => Sys2Proof.Machine.execBrk a b c s

end Sys2Proof.Machine
end

