-- ==== Sys2Proof/Machine/Step.lean ====
section
/-! DEFINITION. One step (30_encoding.md R66) and the placing of an instruction where the next step fetches it. -/

namespace Sys2Proof.Machine

/-- Step(): when Running, fetch the two bytes at pc, decode them and run the instruction; otherwise the core has no
step (10_state.md R28, 70_reset_and_hazards.md R241). -/
def step (s : State) : Host.Outcome State Fault Refusal :=
  match s.engine with
  | .running => exec (decode s.fetch.1 s.fetch.2) s
  | .haltedBy reason => .fault (.haltedByError reason)
  | .terminated => .fault .terminated

/-- `s` with the instruction of the opcode table's number W stored at pc, byte0 first (R60). -/
def State.withFetchWord (s : State) (nbits w : Nat) : State :=
  s.memWrite2 s.pc (tableBytes (w % 2 ^ nbits)).1 (tableBytes (w % 2 ^ nbits)).2

end Sys2Proof.Machine
end

