-- ==== Sys2Proof/WellFormed.lean ====
section
/-! DEFINITION. Which terms are well formed.

Every term of `Instr` is: "No encoding is illegal or reserved" (30_encoding.md R65), and the widths of the fields are
their types. What can be ill formed is a line handed to an assembler: the checks below are the operand ranges of R68
and R64, for each of the six formats (R62). -/

namespace Sys2Proof

/-- The format of each mnemonic (R62). -/
def Mnemonic.format : Mnemonic → Format
  | .add | .sub | .ror | .rol | .shr | .shl | .and | .ora | .mul | .div | .cmp => .rrr
  | .jeq => .jrr
  | .xri => .ri8
  | .srr => .rrk
  | .srm => .rrm
  | .brk => .brk

/-- A register operand names one of the sixteen registers (R21). -/
def isRegister (n : Nat) : Bool := n < 16

/-- An immediate is 0 to 255 (R64, R68). -/
def isImm8 (n : Nat) : Bool := n < 256

/-- The control of `srr` and a selector of `brk` are one hex digit, 0 to 15 (R64, R68). -/
def isDigit (n : Nat) : Bool := n < 16

/-- The number of operands and the range of each, by format (R62, R68). -/
def AsmStmt.wellFormed (s : AsmStmt) : Bool :=
  match s.mnemonic.format, s.operands with
  | .rrr, [a, b, c] => isRegister a && isRegister b && isRegister c
  | .jrr, [a, b, c] => isRegister a && isRegister b && isRegister c
  | .ri8, [a, v] => isRegister a && isImm8 v
  | .rrk, [a, b, k] => isRegister a && isRegister b && isDigit k
  | .rrm, [a, b] => isRegister a && isRegister b
  | .brk, [a, b] => isDigit a && isDigit b
  | _, _ => false

end Sys2Proof
end

