-- ==== Sys2Proof/Machine/Assembly.lean ====
section
/-! DEFINITION. The assembly syntax (30_encoding.md R68 to R70, D27): the line an instruction prints as, and the
instruction a line of numbers assembles to. It "does not change execution"; text is a list of characters. -/

namespace Sys2Proof.Machine

/-- Text, character by character. -/
abbrev Text := List Char

/-- One uppercase hex digit (R68). -/
def hexDigit (n : Nibble) : Char :=
  #v['0', '1', '2', '3', '4', '5', '6', '7', '8', '9', 'A', 'B', 'C', 'D', 'E', 'F'][n.toNat]'n.isLt

/-- `r` and one uppercase hex digit (R10, R68). -/
def regName (r : Reg) : Text := ['r', hexDigit (nibbleOf r)]

/-- One decimal digit. -/
def decDigit (n : Nat) : Char := hexDigit (BitVec.ofNat 4 (n % 10))

/-- 0 to 255 in decimal "without padding" (R68). -/
def decimalByte (v : Byte) : Text :=
  if v.toNat < 10 then [decDigit v.toNat]
  else if v.toNat < 100 then [decDigit (v.toNat / 10), decDigit v.toNat]
  else [decDigit (v.toNat / 100), decDigit (v.toNat / 10), decDigit v.toNat]

/-- `0x` and "two uppercase hex digits" (R68). -/
def hexByte (v : Byte) : Text := ['0', 'x', hexDigit (hiNibble v), hexDigit (loNibble v)]

/-- `0x` and one hex digit, a selector of `brk` (R68). -/
def hexNibble (n : Nibble) : Text := ['0', 'x', hexDigit n]

/-- The separator "comma, space". -/
def comma : Text := [',', ' ']

/-- The mnemonics as the spec writes them (R63). -/
def mnemonicText : Mnemonic → Text
  | .add => ['a', 'd', 'd']
  | .sub => ['s', 'u', 'b']
  | .ror => ['r', 'o', 'r']
  | .rol => ['r', 'o', 'l']
  | .shr => ['s', 'h', 'r']
  | .shl => ['s', 'h', 'l']
  | .and => ['a', 'n', 'd']
  | .ora => ['o', 'r', 'a']
  | .mul => ['m', 'u', 'l']
  | .div => ['d', 'i', 'v']
  | .cmp => ['c', 'm', 'p']
  | .jeq => ['j', 'e', 'q']
  | .xri => ['x', 'r', 'i']
  | .srr => ['s', 'r', 'r']
  | .srm => ['s', 'r', 'm']
  | .brk => ['b', 'r', 'k']

/-- The letter 'A' + i (R69). -/
def positionLetter (i : Fin 4) : Char := #v['A', 'B', 'C', 'D'][i.val]

/-- `p.` and the letters 'A' + p(0) to 'A' + p(3) (R69). -/
def permutationName (p : ByteInvolution) : Text :=
  ['p', '.', positionLetter (involutionAt p 0), positionLetter (involutionAt p 1), positionLetter (involutionAt p 2),
    positionLetter (involutionAt p 3)]

/-- The name of an entry of the table for a control of 0 to 7, `p.invalid` for 8 to 15 (R68, R142). -/
def controlName (ctl : Nibble) : Text :=
  match srrIndex ctl with
  | some k => permutationName (srrEntry k)
  | none => ['p', '.', 'i', 'n', 'v', 'a', 'l', 'i', 'd']

/-- The three-register forms: `op rX, rY, rZ` (R68). -/
def threeRegs (a b c : Reg) : Text := regName a ++ comma ++ regName b ++ comma ++ regName c

/-- The operands of an instruction as the disassembler prints them (R68); the ignored fields are not shown. -/
def operandText : Instr → Text
  | .add a b c => threeRegs a b c
  | .sub a b c => threeRegs a b c
  | .ror a b c => threeRegs a b c
  | .rol a b c => threeRegs a b c
  | .shr a b c => threeRegs a b c
  | .shl a b c => threeRegs a b c
  | .and a b c => threeRegs a b c
  | .ora a b c => threeRegs a b c
  | .mul a b c => threeRegs a b c
  | .div a b c => threeRegs a b c
  | .cmp a b c => threeRegs a b c
  | .jeq a b c => threeRegs a b c
  | .xri a imm8 => regName a ++ comma ++ hexByte imm8 ++ comma ++ decimalByte imm8
  | .srr a b ctl => regName a ++ comma ++ regName b ++ comma ++ controlName ctl
  | .srm a b _ => regName a ++ comma ++ regName b
  | .brk a b _ => hexNibble a ++ comma ++ hexNibble b

/-- The disassembler's line; it "never fails on any byte pair" (R69). -/
def disassemble (i : Instr) : Text := mnemonicText i.mnemonic ++ ' ' :: operandText i

/-- The fields of a line of the assembler's numbers, for a line in range (R62, R68); `srm` and `brk` assemble "with
c = 0". -/
def asmFields (st : AsmStmt) : Fields :=
  match st.mnemonic.format, st.operands with
  | .ri8, [a, v] =>
    ⟨st.mnemonic.opcode, BitVec.ofNat 4 a, hiNibble (BitVec.ofNat 8 v), loNibble (BitVec.ofNat 8 v)⟩
  | _, [a, b, c] => ⟨st.mnemonic.opcode, BitVec.ofNat 4 a, BitVec.ofNat 4 b, BitVec.ofNat 4 c⟩
  | _, [a, b] => ⟨st.mnemonic.opcode, BitVec.ofNat 4 a, BitVec.ofNat 4 b, 0⟩
  | _, _ => ⟨st.mnemonic.opcode, 0, 0, 0⟩

/-- The instruction a well-formed line assembles to; any other line is refused (R68). -/
def assemble (st : AsmStmt) : Option Instr :=
  if st.wellFormed then some (asmFields st).toInstr else none

/-- The line of numbers an instruction is written as (R68). -/
def toAsm (i : Instr) : AsmStmt where
  mnemonic := i.mnemonic
  operands :=
    match i.mnemonic.format with
    | .ri8 => [i.toFields.a.toNat, (joinNibbles i.toFields.b i.toFields.c).toNat]
    | .rrr | .jrr | .rrk => [i.toFields.a.toNat, i.toFields.b.toNat, i.toFields.c.toNat]
    | .rrm | .brk => [i.toFields.a.toNat, i.toFields.b.toNat]

/-! ### Reading a line of text -/

/-- Every mnemonic, in the order of the opcode map (R63). -/
def allMnemonics : List Mnemonic := opcodeMap.toList

/-- The value of a hex digit, upper or lower case (R68: "lowercase hex digit in register name"). -/
def hexValue (ch : Char) : Option Nat :=
  let n := ch.toNat
  if 48 ≤ n && n ≤ 57 then some (n - 48)
  else if 65 ≤ n && n ≤ 70 then some (n - 55)
  else if 97 ≤ n && n ≤ 102 then some (n - 87)
  else none

/-- The number that digits in a base stand for, `acc` the digits read so far. -/
def readDigits (base : Nat) : Nat → Text → Option Nat
  | acc, [] => some acc
  | acc, ch :: rest =>
    match hexValue ch with
    | some d => if d < base then readDigits base (acc * base + d) rest else none
    | none => none

/-- A number, hex `0x..` or decimal (R68). -/
def readNumber : Text → Option Nat
  | [] => none
  | ['0', 'x'] => none
  | '0' :: 'x' :: rest => readDigits 16 0 rest
  | text => readDigits 10 0 text

/-- A register name, `r` and one hex digit (R68). -/
def readRegister : Text → Option Nat
  | ['r', d] => hexValue d
  | _ => none

/-- The pieces of a line between its commas. -/
def splitCommas : Text → List Text
  | [] => [[]]
  | ch :: rest =>
    if ch = ',' then [] :: splitCommas rest
    else match splitCommas rest with
      | [] => [[ch]]
      | first :: others => (ch :: first) :: others

/-- The text without the spaces it begins with: "spaces optional after commas" (R68). -/
def dropSpaces : Text → Text
  | ' ' :: rest => dropSpaces rest
  | text => text

/-- The values that may stand at one place of a line: those of the reading, if there is one. -/
def oneOf (n : Option Nat) : List Nat := n.toList

/-- An immediate printed twice, "in both hex and decimal" (R68): the two literals are the same value. -/
def readImmTwice (hex dec : Text) : Option Nat :=
  match readNumber hex, readNumber dec with
  | some v, some w => if v = w then some v else none
  | _, _ => none

/-- A control of `srr` (R68): a number, or a name, which stands for every control that prints as it: the table's entries
may repeat (R30), and `p.invalid` is 8 to 15. -/
def readControl (text : Text) : List Nat :=
  oneOf (readNumber text) ++ (List.range 16).filter (fun k => controlName (BitVec.ofNat 4 k) == text)

/-- Every way to take one value from each list, in order. -/
def choices : List (List Nat) → List (List Nat)
  | [] => [[]]
  | vs :: rest => vs.flatMap (fun v => (choices rest).map (fun ws => v :: ws))

/-- The operands of a line by format (R68), as the disassembler prints them or as the "assembler also accepts" them. -/
def readOperands (f : Format) (pieces : List Text) : List (List Nat) :=
  match f, pieces with
  | .rrr, [a, b, c] | .jrr, [a, b, c] =>
    choices [oneOf (readRegister a), oneOf (readRegister b), oneOf (readRegister c)]
  | .ri8, [a, v] => choices [oneOf (readRegister a), oneOf (readNumber v)]
  | .ri8, [a, h, d] => choices [oneOf (readRegister a), oneOf (readImmTwice h d)]
  | .rrk, [a, b, k] => choices [oneOf (readRegister a), oneOf (readRegister b), readControl k]
  | .rrm, [a, b] => choices [oneOf (readRegister a), oneOf (readRegister b)]
  | .brk, [a, b] => choices [oneOf (readNumber a), oneOf (readNumber b)]
  | _, _ => []

/-- The lines of numbers a line of text may stand for (R68): three letters, a space, the operands. -/
def readLine : Text → List AsmStmt
  | x :: y :: z :: ' ' :: rest =>
    match allMnemonics.find? (fun m => mnemonicText m == [x, y, z]) with
    | some m => (readOperands m.format ((splitCommas rest).map dropSpaces)).map (AsmStmt.mk m)
    | none => []
  | _ => []

/-- What the assembler makes of an instruction's ignored field: `srm` and `brk` assemble "with c = 0" (R68). -/
def withoutIgnored : Instr → Instr
  | .srm a b _ => .srm a b 0
  | .brk a b _ => .brk a b 0
  | i => i

/-- Whether a line of text may stand for an instruction: a line of numbers it reads to assembles to it (R68). -/
def lineAccepted (line : Text) (i : Instr) : Bool :=
  (readLine line).any (fun st => assemble st == some i)

end Sys2Proof.Machine
end

