-- ==== Sys2Proof/Machine/HostInterface.lean ====
section
/-! DEFINITION. The host's operations between steps (70_reset_and_hazards.md R230 to R232, R240 to R245). They are no
part of `step`. -/

namespace Sys2Proof.Machine

/-- RESET: "the effect is rule R230", the same at any time (R231, R240, D19). -/
def hostReset (_s : State) : State := .reset

/-- IMAGE LOAD: "loaded verbatim starting at memory address 0"; an image longer than 65535 bytes is refused (R232,
D30). -/
def loadImage (image : List Byte) (s : State) : Host.Outcome State Fault Refusal :=
  if image.length ≤ maxImageLength then .next { s with mem := s.mem.writeBytes 0 image }
  else .refused .imageTooLong

/-- STEP: one step of a Running core; "the request does nothing" on any other (R241, D18). -/
def stepRequest (s : State) : State :=
  match step s with
  | .next t => t
  | .fault _ => s
  | .refused _ => s

/-- `n` STEP requests. -/
def stepRequests : Nat → State → State
  | 0, s => s
  | n + 1, s => stepRequests n (stepRequest s)

/-- SET_DIR: "The write changes nothing else" (R242, D28). -/
def setDir (d : Direction) (s : State) : State := { s with dir := d }

/-- What one REPAIR writes: "any general register, pc (even or odd), dir, err (including back to none) and any memory
byte" (R243); there is no write of `halted`. -/
inductive RepairWrite where
  | reg (r : Reg) (v : Word)
  | pc (t : Word)
  | dir (d : Direction)
  | err (e : Option CoreError)
  | mem (a : Word) (v : Byte)
deriving DecidableEq, Repr

/-- REPAIR of err (R243). None is always written, and returns a Halted(reason) core to Running. An error is written too,
but on a Terminated core it has no effect: "Terminated is left only by a host reset" (R28, R213, R240, D19), Halted(reason)
is every state whose err is not none (R28), and R26 names no repair among the writers of an error (DEDUCED, log 17). -/
def repairErr (e : Option CoreError) (s : State) : State :=
  match e with
  | none => s.clearErr
  | some e => if s.engine = .terminated then s else s.setErr (some e)

/-- REPAIR (R243). -/
def repair (w : RepairWrite) (s : State) : State :=
  match w with
  | .reg r v => s.setReg r v
  | .pc t => s.setPc t
  | .dir d => setDir d s
  | .err e => repairErr e s
  | .mem a v => s.writeByte a v

/-- READ: the events "produced by the last step" (R244), from the states before and after it. -/
def eventsOfStep (before after : State) : List RegFile := after.dumps.drop before.dumps.length

/-- The other direction. -/
def oppositeDir : Direction → Direction
  | .forward => .backward
  | .backward => .forward

/-- The host's reversal: SET_DIR to the other direction, then a repair of pc by the host's own convention, the OPEN
parameter HOST_REVERSE_ADJUST (D28, C4). -/
def reverseDirection (s : State) : State :=
  repair (.pc (hostReverseAdjust s.dir s.pc)) (setDir (oppositeDir s.dir) s)

/-- What a host may do between two steps, a step request included (R240 to R244). -/
inductive HostAction where
  | reset
  | load (image : List Byte)
  | step
  | setDir (d : Direction)
  | repair (w : RepairWrite)
  | read
deriving DecidableEq, Repr

/-- The effect of one host action. -/
def hostAct (act : HostAction) (s : State) : Host.Outcome State Fault Refusal :=
  match act with
  | .reset => .next (hostReset s)
  | .load image => loadImage image s
  | .step => .next (stepRequest s)
  | .setDir d => .next (Machine.setDir d s)
  | .repair w => .next (Machine.repair w s)
  | .read => .next s

end Sys2Proof.Machine
end

