-- ==== Sys2Proof/Safety.lean ====
section
/-! DEFINITION. The terms claims are stated in: the invariant of the machine's runs, what an instruction may read and
write (10_state.md R22), the frames, and the spec's own formulas for the pc advance and for the bytes of a register pair. -/

namespace Sys2Proof.Machine

/-! ### Runs -/

/-- The next state an outcome gives, if it gives one. -/
def nextOf (o : Host.Outcome State Fault Refusal) : Option State :=
  match o with
  | .next t => some t
  | .fault _ => none
  | .refused _ => none

/-- A Running core (R28). -/
abbrev State.Running (s : State) : Prop := s.err = none ∧ s.halted = false

/-- The instruction at pc (R60, R66). -/
def State.current (s : State) : Instr := decode s.fetch.1 s.fetch.2

/-- What holds of every state reached from reset by steps: memory is in canonical form, pc is even (R34), and an error
and halt-self have not both happened (R205). -/
abbrev State.Inv (s : State) : Prop :=
  s.mem.wf = true ∧ s.pc.toNat % 2 = 0 ∧ ¬(s.err ≠ none ∧ s.halted = true)

/-! ### Which registers an instruction reads and writes (R22) -/

/-- The registers an instruction may write. -/
def writeSet : Instr → List Reg
  | .add a _ _ => [a]
  | .sub a _ _ => [a]
  | .ror a _ _ => [a]
  | .rol a _ _ => [a]
  | .shr a _ _ => [a]
  | .shl a _ _ => [a]
  | .and a _ _ => [a]
  | .ora a _ _ => [a]
  | .mul a _ _ => [a]
  | .div a _ _ => [a]
  | .cmp a _ _ => [a]
  | .jeq a _ _ => [a]
  | .xri a _ => [a]
  | .srr a b _ => [a, b]
  | .srm a _ _ => [a]
  | .brk _ _ _ => []

/-- The registers an instruction reads; `brk` reads "all 16 (for the dump)". -/
def readSet : Instr → List Reg
  | .add a b c => [a, b, c]
  | .sub a b c => [a, b, c]
  | .ror a b c => [a, b, c]
  | .rol a b c => [a, b, c]
  | .shr a b c => [a, b, c]
  | .shl a b c => [a, b, c]
  | .and a b c => [a, b, c]
  | .ora a b c => [a, b, c]
  | .mul a b c => [a, b, c]
  | .div a b c => [a, b, c]
  | .cmp a b c => [a, b, c]
  | .jeq a b c => [a, b, c]
  | .xri a _ => [a]
  | .srr a b _ => [a, b]
  | .srm a b _ => [a, b]
  | .brk _ _ _ => List.finRange 16

/-- The destination of an instruction of the XOR-involution property and its source registers (R112, R141). -/
def accumulation : Instr → Option (Reg × List Reg)
  | .add a b c => some (a, [b, c])
  | .sub a b c => some (a, [b, c])
  | .ror a b c => some (a, [b, c])
  | .rol a b c => some (a, [b, c])
  | .shr a b c => some (a, [b, c])
  | .shl a b c => some (a, [b, c])
  | .and a b c => some (a, [b, c])
  | .ora a b c => some (a, [b, c])
  | .mul a b c => some (a, [b, c])
  | .div a b c => some (a, [b, c])
  | .cmp a b c => some (a, [b, c])
  | .xri a _ => some (a, [])
  | .jeq _ _ _ => none
  | .srr _ _ _ => none
  | .srm _ _ _ => none
  | .brk _ _ _ => none

/-! ### Frames -/

/-- dir, err and halted are unchanged, and no event is emitted. -/
abbrev SameStatus (s t : State) : Prop :=
  t.dir = s.dir ∧ t.err = s.err ∧ t.halted = s.halted ∧ t.dumps = s.dumps

/-- Every byte of memory is unchanged. -/
abbrev SameMemory (s t : State) : Prop := ∀ x : Word, t.readByte x = s.readByte x

/-- Every register outside a list is unchanged. -/
abbrev SameRegsBut (rs : List Reg) (s t : State) : Prop := ∀ r : Reg, r ∉ rs → t.reg r = s.reg r

/-- Nothing is changed but the registers of a list and pc. -/
abbrev WritesOnly (rs : List Reg) (s t : State) : Prop := SameRegsBut rs s t ∧ SameStatus s t ∧ SameMemory s t

/-! ### The spec's formulas -/

/-- +1 or -1 (R25). -/
def dirValue : Direction → Int
  | .forward => 1
  | .backward => -1

/-- trunc_16(pc + 2 * dir), computed exactly and then narrowed (R24). -/
def nextPc (s : State) : Word := BitVec.ofInt 16 ((s.pc.toNat : Int) + 2 * dirValue s.dir)

/-- Byte i of the four bytes of a register pair, bytes 0 and 1 the first register's, low first, 2 and 3 the second's
(R142): byte i of the 32-bit number (second, first). -/
def pairByte (first second : Word) (i : Fin 4) : Byte := (second ++ first : BitVec 32).extractLsb' (8 * i.val) 8

/-- The two bytes of the encoding of `jeq rA, rB, rC`: `BA BC` (R130). -/
def jeqBytes (a b c : Reg) : Byte × Byte :=
  (joinNibbles 0xB (nibbleOf a), joinNibbles (nibbleOf b) (nibbleOf c))

end Sys2Proof.Machine
end

