-- ==== Sys2Proof/Certificates/Slice0/Obligations.lean ====
section
/-! DEFINITION. The statements for the provers. Each docstring says what is stated, the rules it comes from and, where a
clause rests on a decision of the spec (D<n>) or of the model (log <n>), which. -/

open Sys2Proof
open Sys2Proof.Machine

/-! ### Encoding -/

/-- R60: the decoder's four fields as numbers of the two bytes fetched at pc and pc + 1 (modulo 65536, D13), and one
byte pair for each (op, a, b, c). -/
def Obligations.DecoderSplitsTwoBytes : Prop :=
  (∀ s : State, s.fetch = (s.readByte s.pc, s.readByte (BitVec.ofNat 16 (s.pc.toNat + 1)))) ∧
  (∀ byte0 byte1 : Byte,
    (decodeFields byte0 byte1).op.toNat = byte0.toNat / 16 ∧ (decodeFields byte0 byte1).a.toNat = byte0.toNat % 16 ∧
    (decodeFields byte0 byte1).b.toNat = byte1.toNat / 16 ∧ (decodeFields byte0 byte1).c.toNat = byte1.toNat % 16) ∧
  (∀ f : Fields, ∃! p : Byte × Byte, decodeFields p.1 p.2 = f)

/-- R61 to R64: decoding the encoding of any instruction gives it back, every operand at every value. -/
def Obligations.DecodeOfEncode : Prop :=
  ∀ i : Instr, decode (encode i).1 (encode i).2 = i

/-- R60, R65: every byte pair is the encoding of the instruction it decodes to; none is illegal. -/
def Obligations.EncodeOfDecode : Prop :=
  ∀ byte0 byte1 : Byte, encode (decode byte0 byte1) = (byte0, byte1)

/-- The words of the spec's own examples, one of each opcode (95_test_vectors.md V-DEC and 40_alu.md to 44_break.md; the
twelve opcode values of D1, log 4). -/
def Obligations.SpecWordsDecode : Prop :=
  decode 0x01 0x23 = .add 1 2 3 ∧ decode 0x11 0x23 = .sub 1 2 3 ∧ decode 0x21 0x23 = .ror 1 2 3 ∧
  decode 0x31 0x23 = .rol 1 2 3 ∧ decode 0x41 0x23 = .shr 1 2 3 ∧ decode 0x51 0x23 = .shl 1 2 3 ∧
  decode 0x61 0x23 = .and 1 2 3 ∧ decode 0x7E 0x81 = .ora 14 8 1 ∧ decode 0x83 0x12 = .mul 3 1 2 ∧
  decode 0x93 0x12 = .div 3 1 2 ∧ decode 0xA5 0x3C = .cmp 5 3 12 ∧ decode 0xB1 0x23 = .jeq 1 2 3 ∧
  decode 0xC3 0x9F = .xri 3 0x9F ∧ decode 0xD2 0x4F = .srr 2 4 15 ∧ decode 0xE1 0x2C = .srm 1 2 12 ∧
  decode 0xF3 0x40 = .brk 3 4 0

/-- R68, R64: an instruction's line of numbers is in range and assembles to it, an ignored field as 0 (D27). -/
def Obligations.AssembleOfToAsm : Prop :=
  ∀ i : Instr, (toAsm i).wellFormed = true ∧ assemble (toAsm i) = some (withoutIgnored i)

/-- R68, R69 (D27, log 19): the line an instruction prints as is accepted for exactly the instructions that print so and
whose ignored field is 0. So an instruction with its ignored field 0 is read back from its own line, `xri` with its
immediate printed twice and `srr` with its control's name included; a name stands for every control that has it, as the
table's entries may repeat (R30) and `p.invalid` is 8 to 15. -/
def Obligations.AssemblerReadsDisassembly : Prop :=
  ∀ i j : Instr, lineAccepted (disassemble i) j = true ↔ disassemble j = disassemble i ∧ withoutIgnored j = j

/-! ### The step -/

/-- R66: a step of a Running core is the meaning of the instruction decoded from the bytes at pc and pc + 1; `step`
adds nothing around it. -/
def Obligations.StepRunsDecodedInstruction : Prop :=
  ∀ s : State, s.Running → step s = exec (decode (s.readByte s.pc) (s.readByte (s.pc + 1))) s

/-- R255: "a step of a Running core always completes". -/
def Obligations.RunningStepCompletes : Prop :=
  ∀ s : State, s.Running → ∃ t, step s = .next t

/-- R28, R241: a core in Halted(reason) or Terminated has no step, and a step request changes nothing (D18, log 12). -/
def Obligations.StoppedCoreHasNoStep : Prop :=
  (∀ (s : State) (e : CoreError), s.err = some e → step s = .fault (.haltedByError e) ∧ stepRequest s = s) ∧
  (∀ s : State, s.err = none → s.halted = true → step s = .fault .terminated ∧ stepRequest s = s)

/-- R24: after a step that took no jump, raised no error and did not halt, pc is trunc_16(pc + 2 * dir) (wrap by D13). -/
def Obligations.PcAdvances : Prop :=
  ∀ s t : State, step s = .next t → t.err = none → t.halted = false →
    (∀ a b c, s.current = .jeq a b c → s.reg b ≠ s.reg c) → t.pc = nextPc s

/-! ### The ALU family -/

/-- R101, its encoding included: x[a] <- x[a] ^ trunc_16(x[b] + x[c]), no flags, no exceptions; and the
pc of its example. (The pc advance of every instruction is PcAdvances.) -/
def Obligations.AddResult : Prop :=
  ∀ (a b c : Reg) (s : State),
    decode (joinNibbles 0x0 (nibbleOf a)) (joinNibbles (nibbleOf b) (nibbleOf c)) = .add a b c ∧
    ∃ t, exec (.add a b c) s = .next t ∧
      t.reg a = s.reg a ^^^ BitVec.ofNat 16 ((s.reg b).toNat + (s.reg c).toNat) ∧ WritesOnly [a] s t ∧
      (s.dir = .forward → s.pc = 0 → t.pc = 2)

/-- R102: x[a] <- x[a] ^ trunc_16(x[b] - x[c] + 65536) (operand order D34). -/
def Obligations.SubResult : Prop :=
  ∀ (a b c : Reg) (s : State), ∃ t, exec (.sub a b c) s = .next t ∧
    t.reg a = s.reg a ^^^ BitVec.ofNat 16 ((s.reg b).toNat + 65536 - (s.reg c).toNat) ∧
    t.pc = nextPc s ∧ WritesOnly [a] s t

/-- R103: `ror` rotates the zero-extended x[b] right by x[c] modulo 16 and keeps the low 16 bits, which "equals
x[b] >> n" (ROT_WIDTH 32 is D6, log 7). -/
def Obligations.RorResult : Prop :=
  ∀ (a b c : Reg) (s : State), ∃ t, exec (.ror a b c) s = .next t ∧
    t.reg a = s.reg a ^^^ (((s.reg b).setWidth 32).rotateRight ((s.reg c).toNat % 16)).setWidth 16 ∧
    t.reg a = s.reg a ^^^ BitVec.ofNat 16 ((s.reg b).toNat / 2 ^ ((s.reg c).toNat % 16)) ∧
    t.pc = nextPc s ∧ WritesOnly [a] s t

/-- R104: `rol` rotates the zero-extended x[b] left by x[c] modulo 16 and keeps the low 16 bits, which "equals
trunc_16(x[b] << n)" (ROT_WIDTH 32 is D6, log 7). -/
def Obligations.RolResult : Prop :=
  ∀ (a b c : Reg) (s : State), ∃ t, exec (.rol a b c) s = .next t ∧
    t.reg a = s.reg a ^^^ (((s.reg b).setWidth 32).rotateLeft ((s.reg c).toNat % 16)).setWidth 16 ∧
    t.reg a = s.reg a ^^^ BitVec.ofNat 16 ((s.reg b).toNat * 2 ^ ((s.reg c).toNat % 16)) ∧
    t.pc = nextPc s ∧ WritesOnly [a] s t

/-- R105: `shr` shifts x[b] right with zero fill (D8) by x[c] modulo 16 under NIBBLE, by x[c] under FULL; for both values
of the OPEN parameter SHIFT_MODE (D7, log 2). -/
def Obligations.ShrResult : Prop :=
  ∀ (a b c : Reg) (s : State), ∃ t, exec (.shr a b c) s = .next t ∧
    t.reg a = s.reg a ^^^ BitVec.ofNat 16 ((s.reg b).toNat / 2 ^
      (match Config.shiftMode with
        | .nibble => (s.reg c).toNat % 16
        | .full => (s.reg c).toNat)) ∧
    t.pc = nextPc s ∧ WritesOnly [a] s t

/-- R106: `shl` shifts x[b] left by x[c] modulo 16 under NIBBLE, by x[c] under FULL, bits past bit 15 lost; for both
values of the OPEN parameter SHIFT_MODE (D7, log 2). -/
def Obligations.ShlResult : Prop :=
  ∀ (a b c : Reg) (s : State), ∃ t, exec (.shl a b c) s = .next t ∧
    t.reg a = s.reg a ^^^ BitVec.ofNat 16 ((s.reg b).toNat * 2 ^
      (match Config.shiftMode with
        | .nibble => (s.reg c).toNat % 16
        | .full => (s.reg c).toNat)) ∧
    t.pc = nextPc s ∧ WritesOnly [a] s t

/-- R105, R106, R103, R104: for an amount register of 0 to 15 the two shift modes agree, and under ROT_WIDTH 32 (D6, log
7) `ror` is `shr` and `rol` is `shl`, whatever SHIFT_MODE is. -/
def Obligations.RotatesAreShiftsBelowSixteen : Prop :=
  ∀ (a b c : Reg) (s : State), (s.reg c).toNat < 16 →
    exec (.ror a b c) s = exec (.shr a b c) s ∧ exec (.rol a b c) s = exec (.shl a b c) s

/-- R107, R108: bitwise and, bitwise inclusive or, bit by bit. -/
def Obligations.LogicResult : Prop :=
  ∀ (a b c : Reg) (s : State),
    (∃ t, exec (.and a b c) s = .next t ∧
      (∀ k, k < 16 → (t.reg a).getLsbD k = ((s.reg a).getLsbD k ^^ ((s.reg b).getLsbD k && (s.reg c).getLsbD k))) ∧
      t.pc = nextPc s ∧ WritesOnly [a] s t) ∧
    (∃ t, exec (.ora a b c) s = .next t ∧
      (∀ k, k < 16 → (t.reg a).getLsbD k = ((s.reg a).getLsbD k ^^ ((s.reg b).getLsbD k || (s.reg c).getLsbD k))) ∧
      t.pc = nextPc s ∧ WritesOnly [a] s t)

/-- R109: the low 16 bits of the product (D9). -/
def Obligations.MulResult : Prop :=
  ∀ (a b c : Reg) (s : State), ∃ t, exec (.mul a b c) s = .next t ∧
    t.reg a = s.reg a ^^^ BitVec.ofNat 16 ((s.reg b).toNat * (s.reg c).toNat) ∧
    t.pc = nextPc s ∧ WritesOnly [a] s t

/-- R110: division by zero changes no register; otherwise the unsigned quotient, truncated (D10), is XORed in. -/
def Obligations.DivResult : Prop :=
  ∀ (a b c : Reg) (s : State), ∃ t, exec (.div a b c) s = .next t ∧
    ((s.reg c).toNat = 0 → t.reg a = s.reg a) ∧
    ((s.reg c).toNat ≠ 0 → t.reg a = s.reg a ^^^ BitVec.ofNat 16 ((s.reg b).toNat / (s.reg c).toNat)) ∧
    t.pc = nextPc s ∧ WritesOnly [a] s t

/-- R111: 0, 1 or 0xFFFF for equal, greater, less, compared as unsigned numbers (D11, log 8). -/
def Obligations.CmpResult : Prop :=
  ∀ (a b c : Reg) (s : State), ∃ t, exec (.cmp a b c) s = .next t ∧
    ((s.reg b).toNat = (s.reg c).toNat → t.reg a = s.reg a) ∧
    ((s.reg c).toNat < (s.reg b).toNat → t.reg a = s.reg a ^^^ 0x0001) ∧
    ((s.reg b).toNat < (s.reg c).toNat → t.reg a = s.reg a ^^^ 0xFFFF) ∧
    t.pc = nextPc s ∧ WritesOnly [a] s t

/-! ### jeq -/

/-- R130: "If the condition is false, the instruction is a no-op"; whatever x[a] is, pc advances. -/
def Obligations.JeqNotTaken : Prop :=
  ∀ (a b c : Reg) (s : State), s.reg b ≠ s.reg c →
    ∃ t, exec (.jeq a b c) s = .next t ∧ t.pc = nextPc s ∧ WritesOnly [] s t

/-- R130: condition true and odd target: MisalignedJump, whatever the bytes there (D31), and nothing else changes. -/
def Obligations.JeqMisaligned : Prop :=
  ∀ (a b c : Reg) (s : State), s.reg b = s.reg c → (s.reg a).toNat % 2 = 1 →
    exec (.jeq a b c) s = .next { s with err := some .misalignedJump }

/-- R130: condition true, even target, and a byte there that differs from the instruction's own: MismatchedJump, and
nothing else changes. -/
def Obligations.JeqMismatched : Prop :=
  ∀ (a b c : Reg) (s : State), s.reg b = s.reg c → (s.reg a).toNat % 2 = 0 →
    (s.readByte (s.reg a) ≠ (jeqBytes a b c).1 ∨ s.readByte (s.reg a + 1) ≠ (jeqBytes a b c).2) →
    exec (.jeq a b c) s = .next { s with err := some .mismatchedJump }

/-- R130: condition true, even target holding the instruction's own bytes: x[a] receives the old pc, pc the old x[a], in
either direction; nothing else changes. -/
def Obligations.JeqTaken : Prop :=
  ∀ (a b c : Reg) (s : State), s.reg b = s.reg c → (s.reg a).toNat % 2 = 0 →
    s.readByte (s.reg a) = (jeqBytes a b c).1 → s.readByte (s.reg a + 1) = (jeqBytes a b c).2 →
    ∃ t, exec (.jeq a b c) s = .next t ∧ t.reg a = s.pc ∧ t.pc = s.reg a ∧ WritesOnly [a] s t

/-- R131: an address that a taken `jeq` reaches holds the same two bytes, so the target of `jeq rA, rB, rC` is itself a
`jeq rA, rB, rC`. R24 and R131: every step that raises no error and does not halt either advances pc by 2 * dir, modulo
65536 (the wrap is the spec's decision D13, log 9), or is such a jump. -/
def Obligations.JumpReachesTwin : Prop :=
  (∀ (s t : State) (a b c : Reg), step s = .next t → s.current = .jeq a b c → s.reg b = s.reg c → t.err = none →
    t.pc = s.reg a ∧ t.fetch = s.fetch ∧ t.current = .jeq a b c) ∧
  (∀ s t : State, step s = .next t → t.err = none → t.halted = false →
    t.pc = nextPc s ∨ (t.fetch = s.fetch ∧ ∃ a b c, s.current = .jeq a b c ∧ t.current = .jeq a b c))

/-- R132: a taken `jeq rA, rB, rC` with a not b or c, from an even pc, is undone by the next step in either direction. -/
def Obligations.JeqReversible : Prop :=
  ∀ (s : State) (a b c : Reg), s.Running → s.current = .jeq a b c → a ≠ b → a ≠ c → s.reg b = s.reg c →
    s.pc.toNat % 2 = 0 → (s.reg a).toNat % 2 = 0 → s.memRead2 (s.reg a) = s.fetch →
    ∃ t, step s = .next t ∧ t.pc = s.reg a ∧ t.reg a = s.pc ∧
      ∀ d : Direction, step (setDir d t) = .next (setDir d s)

/-- R133: `jeq rA, rA, rC` jumps to x[a] = x[c] and, at the twin, falls through, when the link differs from x[c]. -/
def Obligations.JeqFormFallsThrough : Prop :=
  ∀ (s : State) (a c : Reg), s.Running → s.current = .jeq a a c → a ≠ c → s.reg a = s.reg c →
    (s.reg c).toNat % 2 = 0 → s.memRead2 (s.reg c) = s.fetch → s.pc ≠ s.reg c →
    ∃ t u, step s = .next t ∧ t.pc = s.reg c ∧ t.reg a = s.pc ∧ step t = .next u ∧ u.pc = nextPc t ∧
      WritesOnly [] t u

/-- R130: a jump to itself leaves the whole state as it was, "an endless loop". -/
def Obligations.JeqToItself : Prop :=
  ∀ (s : State) (a b c : Reg), s.Running → s.current = .jeq a b c → s.reg b = s.reg c → s.reg a = s.pc →
    s.pc.toNat % 2 = 0 → step s = .next s

/-! ### xri and srr -/

/-- R140: x[a] <- x[a] ^ zext_16(imm8), so "bits 15:8 of x[a] never change" (D12). -/
def Obligations.XriResult : Prop :=
  ∀ (a : Reg) (imm8 : Byte) (s : State), ∃ t, exec (.xri a imm8) s = .next t ∧
    t.reg a = s.reg a ^^^ BitVec.ofNat 16 imm8.toNat ∧ highByte (t.reg a) = highByte (s.reg a) ∧
    t.pc = nextPc s ∧ WritesOnly [a] s t

/-- R142: a control of 8 to 15 raises InvalidSrrEncoding, whatever a, b and the registers hold, and changes nothing else. -/
def Obligations.SrrInvalidControl : Prop :=
  ∀ (a b : Reg) (ctl : Nibble) (s : State), 8 ≤ ctl.toNat →
    exec (.srr a b ctl) s = .next { s with err := some .invalidSrrEncoding }

/-- R142: for a control of 0 to 7, byte i of the pair is afterwards the old byte p(i), p the table's entry (OPEN, D4, log
1; byte numbering D3, log 6); when a = b this holds of bytes 2 and 3, written last (D5). -/
def Obligations.SrrResult : Prop :=
  ∀ (a b : Reg) (ctl : Nibble) (s : State) (h : ctl.toNat < 8), ∃ t, exec (.srr a b ctl) s = .next t ∧
    (∀ i : Fin 4, 2 ≤ i.val ∨ a ≠ b →
      pairByte (t.reg a) (t.reg b) i =
        pairByte (s.reg a) (s.reg b) (involutionAt (Config.srrTable ⟨ctl.toNat, h⟩) i)) ∧
    t.pc = nextPc s ∧ WritesOnly [a, b] s t

/-! ### srm -/

/-- R150: x[a] receives the bytes at A = x[b] and A + 1 (modulo 65536), low byte first (D2, log 5); those two bytes receive
the old x[a]; every other byte is unchanged. The address is x[b] of the state before. -/
def Obligations.SrmResult : Prop :=
  ∀ (a b : Reg) (c : Nibble) (s : State), s.mem.wf = true → ∃ t, exec (.srm a b c) s = .next t ∧
    (t.reg a).toNat = (s.readByte (s.srmAddress b)).toNat + 256 * (s.readByte (s.srmAddress b + 1)).toNat ∧
    (t.readByte (s.srmAddress b)).toNat = (s.reg a).toNat % 256 ∧
    (t.readByte (s.srmAddress b + 1)).toNat = (s.reg a).toNat / 256 ∧
    s.srmAddress b = s.reg b ∧
    (∀ x : Word, x ≠ s.srmAddress b → x ≠ s.srmAddress b + 1 → t.readByte x = s.readByte x) ∧
    t.pc = nextPc s ∧ SameRegsBut [a] s t ∧ SameStatus s t

/-- R53, R251: the bytes an `srm` stores are the bytes the next fetch at that address reads (D23). -/
def Obligations.FetchSeesSrm : Prop :=
  ∀ (a b : Reg) (c : Nibble) (s t : State), s.mem.wf = true → exec (.srm a b c) s = .next t →
    (t.setPc (s.reg b)).fetch = (lowByte (s.reg a), highByte (s.reg a))

/-! ### brk -/

/-- R160: a `brk` whose selectors are not both 0xF emits one dump of the sixteen registers and advances. -/
def Obligations.BrkDumpsAndAdvances : Prop :=
  ∀ (a b c : Nibble) (s : State), ¬(a = 0xF ∧ b = 0xF) → ∃ t, exec (.brk a b c) s = .next t ∧
    t.dumps = s.dumps ++ [s.regs] ∧ t.pc = nextPc s ∧ SameRegsBut [] s t ∧ SameMemory s t ∧
    t.dir = s.dir ∧ t.err = s.err ∧ t.halted = s.halted

/-- R161: halt-self emits the dump and sets halted; "err stays none, no register or memory changes, and pc stays at the
brk" (D17, log 15). -/
def Obligations.BrkHaltSelf : Prop :=
  ∀ (c : Nibble) (s : State), ∃ t, exec (.brk 0xF 0xF c) s = .next t ∧ t.halted = true ∧
    t.dumps = s.dumps ++ [s.regs] ∧ t.pc = s.pc ∧ SameRegsBut [] s t ∧ SameMemory s t ∧ t.dir = s.dir ∧ t.err = s.err

/-! ### The whole machine -/

/-- R22, its second column: an instruction writes no register but those the table names, and `srr` with an invalid control
and a `jeq` not taken write none. -/
def Obligations.OnlyNamedRegistersWritten : Prop :=
  (∀ (i : Instr) (s t : State), exec i s = .next t → SameRegsBut (writeSet i) s t) ∧
  (∀ (a b : Reg) (ctl : Nibble) (s t : State), 8 ≤ ctl.toNat → exec (.srr a b ctl) s = .next t → SameRegsBut [] s t) ∧
  (∀ (a b c : Reg) (s t : State), s.reg b ≠ s.reg c → exec (.jeq a b c) s = .next t → SameRegsBut [] s t) ∧
  (∀ (a b c : Reg) (s t : State), s.reg c = 0 → exec (.div a b c) s = .next t → SameRegsBut [] s t)

/-- R22, its first column: a register that an instruction does not name has no influence on it. Running the instruction
after writing such a register is writing it after running the instruction. -/
def Obligations.UnnamedRegisterHasNoInfluence : Prop :=
  ∀ (i : Instr) (s : State) (q : Reg) (v : Word), q ∉ readSet i →
    ∃ t, exec i s = .next t ∧ exec i (s.setReg q v) = .next (t.setReg q v)

/-- R41: no instruction but `srm` changes a byte of memory. -/
def Obligations.OnlySrmWritesMemory : Prop :=
  ∀ (i : Instr) (s t : State), (∀ a b c, i ≠ .srm a b c) → exec i s = .next t → SameMemory s t

/-- R160, R35: no instruction but `brk` emits an event, and every `brk` emits exactly one. -/
def Obligations.OnlyBrkDumps : Prop :=
  ∀ (i : Instr) (s t : State), exec i s = .next t →
    ((∃ a b c, i = .brk a b c) → t.dumps = s.dumps ++ [s.regs]) ∧ ((∀ a b c, i ≠ .brk a b c) → t.dumps = s.dumps)

/-- R25: no instruction writes dir. -/
def Obligations.NoInstructionWritesDir : Prop :=
  ∀ (i : Instr) (s t : State), exec i s = .next t → t.dir = s.dir

/-- R201: "Nothing else raises an error" than the causes of R200: a `jeq` whose condition holds and whose target is odd or
holds other bytes than the `jeq`'s own, and an `srr` with a control of 8 to 15. In every other case every instruction has a
next state in which err is what it was: a `jeq` not taken or taken, arithmetic, division by zero, memory access, `brk`.
Every byte pair is an instruction. -/
def Obligations.NothingElseRaises : Prop :=
  (∀ byte0 byte1 : Byte, ∃ i, decode byte0 byte1 = i ∧ encode i = (byte0, byte1)) ∧
  ∀ (i : Instr) (s : State),
    (∀ a b c, i = .jeq a b c → s.reg b = s.reg c →
      (s.reg a).toNat % 2 = 0 ∧ s.memRead2 (s.reg a) = jeqBytes a b c) →
    (∀ a b ctl, i = .srr a b ctl → ctl.toNat < 8) →
    ∃ t, exec i s = .next t ∧ t.err = s.err

/-- R200: a step that ends with an error was the instruction, in the situation, that the table gives for it. -/
def Obligations.ErrorsHaveTheirCauses : Prop :=
  ∀ s t : State, step s = .next t →
    (t.err = some .misalignedJump →
      ∃ a b c, s.current = .jeq a b c ∧ s.reg b = s.reg c ∧ (s.reg a).toNat % 2 = 1) ∧
    (t.err = some .mismatchedJump →
      ∃ a b c, s.current = .jeq a b c ∧ s.reg b = s.reg c ∧ (s.reg a).toNat % 2 = 0 ∧
        s.memRead2 (s.reg a) ≠ s.fetch) ∧
    (t.err = some .invalidSrrEncoding → ∃ a b ctl, s.current = .srr a b ctl ∧ 8 ≤ ctl.toNat)

/-- R203: "Every error is precise": the state after a step that raised one is the state before it with only err changed. -/
def Obligations.ErrorsArePrecise : Prop :=
  ∀ (s t : State) (e : CoreError), step s = .next t → t.err = some e → t = { s with err := some e }

/-- R27, R161: the only step that sets halted is a `brk` with both selectors 0xF. -/
def Obligations.OnlyHaltSelfHalts : Prop :=
  ∀ s t : State, step s = .next t → t.halted = true → ∃ c, s.current = .brk 0xF 0xF c

/-- R112, R141: running an instruction of the XOR-involution property twice restores every register, when its destination
is none of its sources. -/
def Obligations.XorInvolution : Prop :=
  ∀ (i : Instr) (s t u : State) (a : Reg) (sources : List Reg), accumulation i = some (a, sources) → a ∉ sources →
    exec i s = .next t → exec i t = .next u → ∀ r, u.reg r = s.reg r

/-- R143: `srr` with a not b is an involution for every legal entry of the table (C5). -/
def Obligations.SrrInvolution : Prop :=
  ∀ (a b : Reg) (ctl : Nibble) (s t u : State), a ≠ b → ctl.toNat < 8 →
    exec (.srr a b ctl) s = .next t → exec (.srr a b ctl) t = .next u → ∀ r, u.reg r = s.reg r

/-- R151: `srm` with a not b, run twice, restores the register and the two bytes of memory. The premise that memory has
its canonical form is about the model's own representation (log 14). -/
def Obligations.SrmTwiceRestores : Prop :=
  ∀ (a b : Reg) (c : Nibble) (s t u : State), s.mem.wf = true → a ≠ b →
    exec (.srm a b c) s = .next t → exec (.srm a b c) t = .next u → (∀ r, u.reg r = s.reg r) ∧ u.mem = s.mem

/-- D15: the ignored field of `srm` and `brk`, and the other fields of a `brk` that does not halt, have no effect. -/
def Obligations.IgnoredFieldsHaveNoEffect : Prop :=
  (∀ (a b : Reg) (c c' : Nibble) (s : State), exec (.srm a b c) s = exec (.srm a b c') s) ∧
  (∀ (a b c c' : Nibble) (s : State), exec (.brk a b c) s = exec (.brk a b c') s) ∧
  (∀ (a b c a' b' c' : Nibble) (s : State), ¬(a = 0xF ∧ b = 0xF) → ¬(a' = 0xF ∧ b' = 0xF) →
    exec (.brk a b c) s = exec (.brk a' b' c') s)

/-! ### Invariant and reset -/

/-- R34, R205 and the canonical form of memory, which is the model's own choice (log 14): from every state with the
invariant, a step gives a state with it. -/
def Obligations.StepKeepsInvariant : Prop :=
  ∀ s t : State, s.Inv → step s = .next t → t.Inv

/-- The invariant holds at reset (R31, R34; the canonical form of memory is the model's own choice, log 14). -/
def Obligations.ResetHasInvariant : Prop := State.reset.Inv

/-- R230: "every register 0x0000, pc = 0x0000, dir = +1, err = none, halted = false, and every memory byte 0xFF", and no
Dump event; the host's reset gives it from any state. -/
def Obligations.ResetValues : Prop :=
  (∀ r, State.reset.reg r = 0x0000) ∧ State.reset.pc = 0x0000 ∧ dirValue State.reset.dir = 1 ∧ State.reset.err = none ∧
  State.reset.halted = false ∧ (∀ x, State.reset.readByte x = 0xFF) ∧ State.reset.dumps = [] ∧
  ∀ s, hostReset s = State.reset

/-- R161, R233: wherever pc points at two bytes of the fill, even or odd, a step of a Running core halts: "falling off
the end of any program halts gracefully". -/
def Obligations.FillHalts : Prop :=
  ∀ s : State, s.Running → s.readByte s.pc = 0xFF → s.readByte (s.pc + 1) = 0xFF →
    step s = .next { s with halted := true, dumps := s.dumps ++ [s.regs] }

/-! ### The host interface -/

/-- R232: an image of at most 65535 bytes is loaded from address 0, every other byte and every register and status kept; a
longer one is refused (D30). -/
def Obligations.ImageLoad : Prop :=
  ∀ (image : List Byte) (s : State), s.mem.wf = true →
    (image.length ≤ 65535 → ∃ t, loadImage image s = .next t ∧
      (∀ x : Word, ∀ h : x.toNat < image.length, t.readByte x = image[x.toNat]) ∧
      (∀ x : Word, image.length ≤ x.toNat → t.readByte x = s.readByte x) ∧
      SameRegsBut [] s t ∧ SameStatus s t ∧ t.pc = s.pc) ∧
    (65535 < image.length → loadImage image s = .refused .imageTooLong)

/-- R28, R213, R240: Terminated (err none and halted true) is left only by RESET: after any other host action, a step
request and every repair included, the engine is still Terminated (D19; a repair of err to an error there: log 17). And
whatever err is, no action but RESET clears halted (R27). -/
def Obligations.OnlyResetLeavesTerminated : Prop :=
  (∀ (act : HostAction) (s t : State), act ≠ .reset → s.engine = .terminated → hostAct act s = .next t →
    t.engine = .terminated) ∧
  (∀ (act : HostAction) (s t : State), act ≠ .reset → s.halted = true → hostAct act s = .next t → t.halted = true)

/-- R28, R205: no host action, a step request included, makes an error and halted hold together, where they did not
before (a repair of err to an error on a Terminated core: log 17). -/
def Obligations.HostActionsKeepOneStop : Prop :=
  ∀ (act : HostAction) (s t : State), ¬(s.err ≠ none ∧ s.halted = true) → hostAct act s = .next t →
    ¬(t.err ≠ none ∧ t.halted = true)

/-- The model's own choice of a representation, log 14: every host action keeps the canonical form of memory. No rule of
the spec says it. -/
def Obligations.HostActionsKeepMemoryForm : Prop :=
  ∀ (act : HostAction) (s t : State), s.mem.wf = true → hostAct act s = .next t → t.mem.wf = true

/-- R243: a repair of err to none returns a Halted(reason) core to Running, and its next step runs the instruction at pc. -/
def Obligations.RepairResumes : Prop :=
  ∀ (s : State) (e : CoreError), s.err = some e → s.halted = false →
    (repair (.err none) s).engine = .running ∧ step (repair (.err none) s) = exec s.current { s with err := none }

/-- R242, R243: what SET_DIR and a repair write, and that they write nothing else. A repair of err to an error has no effect
on a Terminated core, which only RESET leaves (R28, R240; DEDUCED, log 17). -/
def Obligations.HostWritesAreExact : Prop :=
  ∀ s : State,
    (∀ d, setDir d s = { s with dir := d }) ∧ (∀ t, repair (.pc t) s = { s with pc := t }) ∧
    (∀ d, repair (.dir d) s = { s with dir := d }) ∧
    (repair (.err none) s = { s with err := none }) ∧
    (∀ e, s.engine ≠ .terminated → repair (.err (some e)) s = { s with err := some e }) ∧
    (∀ e, s.engine = .terminated → repair (.err (some e)) s = s) ∧
    (∀ r v, (repair (.reg r v) s).reg r = v ∧ WritesOnly [r] s (repair (.reg r v) s) ∧
      (repair (.reg r v) s).pc = s.pc) ∧
    (∀ a v, s.mem.wf = true → (repair (.mem a v) s).readByte a = v ∧
      (∀ x, x ≠ a → (repair (.mem a v) s).readByte x = s.readByte x) ∧ SameRegsBut [] s (repair (.mem a v) s) ∧
      SameStatus s (repair (.mem a v) s) ∧ (repair (.mem a v) s).pc = s.pc)
end

