-- ==== Sys2Proof/Laws/Bits.lean ====
section
/-! SUPPORT. The bit fields of Decode.lean: splitting and joining are inverse, and their values as numbers. -/

namespace Sys2Proof

@[simp] theorem hiNibble_joinNibbles (hi lo : Nibble) : hiNibble (joinNibbles hi lo) = hi := by
  simp only [hiNibble, joinNibbles]
  revert hi lo
  decide

@[simp] theorem loNibble_joinNibbles (hi lo : Nibble) : loNibble (joinNibbles hi lo) = lo := by
  simp only [loNibble, joinNibbles]
  revert hi lo
  decide

@[simp] theorem joinNibbles_hi_lo (v : Byte) : joinNibbles (hiNibble v) (loNibble v) = v := by
  revert v
  decide

theorem lowByte_toNat (v : Word) : (lowByte v).toNat = v.toNat % 256 := by
  simp [lowByte]

theorem highByte_toNat (v : Word) : (highByte v).toNat = v.toNat / 256 := by
  have h := v.isLt
  simp only [highByte, BitVec.extractLsb'_toNat, Nat.shiftRight_eq_div_pow]
  omega

theorem joinBytes_toNat (hi lo : Byte) : (joinBytes hi lo).toNat = hi.toNat * 256 + lo.toNat := by
  have h := lo.isLt
  simp only [joinBytes, BitVec.toNat_append]
  rw [← Nat.shiftLeft_add_eq_or_of_lt h, Nat.shiftLeft_eq]

@[simp] theorem lowByte_joinBytes (hi lo : Byte) : lowByte (joinBytes hi lo) = lo := by
  apply BitVec.eq_of_toNat_eq
  have h := lo.isLt
  rw [lowByte_toNat, joinBytes_toNat]
  omega

@[simp] theorem highByte_joinBytes (hi lo : Byte) : highByte (joinBytes hi lo) = hi := by
  apply BitVec.eq_of_toNat_eq
  have h := lo.isLt
  rw [highByte_toNat, joinBytes_toNat]
  omega

@[simp] theorem joinBytes_high_low (v : Word) : joinBytes (highByte v) (lowByte v) = v := by
  apply BitVec.eq_of_toNat_eq
  rw [joinBytes_toNat, highByte_toNat, lowByte_toNat]
  omega

@[simp] theorem regOf_nibbleOf (r : Reg) : regOf (nibbleOf r) = r := rfl

@[simp] theorem nibbleOf_regOf (n : Nibble) : nibbleOf (regOf n) = n := rfl

namespace Machine

@[simp] theorem wordOfBytes_bytesOfWord (order : ByteOrder) (v : Word) :
    wordOfBytes order (bytesOfWord order v) = v := by
  cases order <;> simp [wordOfBytes, bytesOfWord]

@[simp] theorem bytesOfWord_wordOfBytes (order : ByteOrder) (b : Byte × Byte) :
    bytesOfWord order (wordOfBytes order b) = b := by
  cases order <;> simp [wordOfBytes, bytesOfWord]

/-- The amount of a rotate is one nibble: 0 to 15, x[c] modulo 16 (R103). -/
theorem rotateAmount_eq (v : Word) : rotateAmount v = v.toNat % 16 := by
  simp [rotateAmount]

theorem shiftAmount_nibble (v : Word) : shiftAmount .nibble v = v.toNat % 16 := by
  simp [shiftAmount]

@[simp] theorem shiftAmount_full (v : Word) : shiftAmount .full v = v.toNat := rfl

/-- Each entry is its own inverse (10_state.md R30). -/
@[simp] theorem involutionAt_involutionAt (p : ByteInvolution) (i : Fin 4) :
    involutionAt p (involutionAt p i) = i := by
  revert p i
  intro p
  cases p <;> decide

theorem isOdd_eq (t : Word) : isOdd t = decide (t.toNat % 2 = 1) := by
  simp [isOdd, BitVec.getLsbD, Nat.testBit_zero]

theorem srrIndex_of_lt {ctl : Nibble} (h : ctl.toNat < 8) : srrIndex ctl = some ⟨ctl.toNat, h⟩ := by
  simp [srrIndex, h]

theorem srrIndex_of_ge {ctl : Nibble} (h : 8 ≤ ctl.toNat) : srrIndex ctl = none := by
  simp [srrIndex, Nat.not_lt.mpr h]

end Machine

end Sys2Proof
end

