-- ==== Sys2Proof/Laws/Assembly.lean ====
section
/-! SUPPORT. Reading and printing lines: each printed piece is read back, and a line is split where it was joined. -/

namespace Sys2Proof.Machine

/-! ### Pieces -/

@[simp] theorem hexValue_hexDigit (n : Nibble) : hexValue (hexDigit n) = some n.toNat := by
  revert n
  decide

@[simp] theorem readRegister_regName (r : Reg) : readRegister (regName r) = some r.val := by
  simp [readRegister, regName, nibbleOf]

@[simp] theorem readNumber_hexNibble (n : Nibble) : readNumber (hexNibble n) = some n.toNat := by
  revert n
  decide

@[simp] theorem readNumber_hexByte (v : Byte) : readNumber (hexByte v) = some v.toNat := by
  revert v
  decide

@[simp] theorem readNumber_decimalByte (v : Byte) : readNumber (decimalByte v) = some v.toNat := by
  revert v
  decide

@[simp] theorem readImmTwice_printed (v : Byte) : readImmTwice (hexByte v) (decimalByte v) = some v.toNat := by
  simp [readImmTwice]

/-- The name of a control is no number. -/
@[simp] theorem readNumber_controlName (ctl : Nibble) : readNumber (controlName ctl) = none := by
  have hp : ∀ rest : Text, readNumber ('p' :: rest) = none := fun _ => rfl
  unfold controlName
  split
  · exact hp _
  · exact hp _

/-- A control's name stands for exactly the controls that print as it. -/
theorem mem_readControl_controlName (ctl : Nibble) (k : Nat) :
    k ∈ readControl (controlName ctl) ↔ k < 16 ∧ controlName (BitVec.ofNat 4 k) = controlName ctl := by
  simp [readControl, oneOf]

/-! ### Splitting at the commas -/

theorem splitCommas_of_no_comma {a : Text} (h : ',' ∉ a) : splitCommas a = [a] := by
  induction a with
  | nil => rfl
  | cons ch rest ih =>
    have hne : ch ≠ ',' := fun e => h (by simp [e])
    simp [splitCommas, hne, ih (fun m => h (List.mem_cons_of_mem ch m))]

theorem splitCommas_append {a : Text} (rest : Text) (h : ',' ∉ a) :
    splitCommas (a ++ ',' :: rest) = a :: splitCommas rest := by
  induction a with
  | nil => simp [splitCommas]
  | cons ch a ih =>
    have hne : ch ≠ ',' := fun e => h (by simp [e])
    simp [splitCommas, hne, ih (fun m => h (List.mem_cons_of_mem ch m))]

theorem comma_not_mem_regName (r : Reg) : ',' ∉ regName r := by
  revert r
  decide

theorem comma_not_mem_hexByte (v : Byte) : ',' ∉ hexByte v := by
  revert v
  decide

theorem comma_not_mem_decimalByte (v : Byte) : ',' ∉ decimalByte v := by
  revert v
  decide

theorem comma_not_mem_hexNibble (n : Nibble) : ',' ∉ hexNibble n := by
  revert n
  decide

theorem comma_not_mem_controlName (ctl : Nibble) : ',' ∉ controlName ctl := by
  have hl : ∀ i : Fin 4, ',' ≠ positionLetter i := by decide
  unfold controlName
  split
  · simp [permutationName, hl]
  · decide

/-- A line is read by its mnemonic's format from the pieces between its commas. -/
theorem readLine_mnemonicText (m : Mnemonic) (rest : Text) :
    readLine (mnemonicText m ++ ' ' :: rest) =
      (readOperands m.format ((splitCommas rest).map dropSpaces)).map (AsmStmt.mk m) := by
  cases m <;> rfl

end Sys2Proof.Machine
end

