-- ==== Sys2Proof/Laws/State.lean ====
section
/-! SUPPORT. One lemma per field per update of `State`, each true by `rfl`, so that no later proof unfolds an update. -/

namespace Sys2Proof.Machine

/-! ### writeByte -/

@[simp] theorem State.writeByte_regs (s : State) (a : Word) (v : Byte) : (s.writeByte a v).regs = s.regs := rfl

@[simp] theorem State.writeByte_pc (s : State) (a : Word) (v : Byte) : (s.writeByte a v).pc = s.pc := rfl

@[simp] theorem State.writeByte_dir (s : State) (a : Word) (v : Byte) : (s.writeByte a v).dir = s.dir := rfl

@[simp] theorem State.writeByte_err (s : State) (a : Word) (v : Byte) : (s.writeByte a v).err = s.err := rfl

@[simp] theorem State.writeByte_halted (s : State) (a : Word) (v : Byte) : (s.writeByte a v).halted = s.halted := rfl

@[simp] theorem State.writeByte_mem (s : State) (a : Word) (v : Byte) : (s.writeByte a v).mem = s.mem.writeAt a.toNat v := rfl

@[simp] theorem State.writeByte_dumps (s : State) (a : Word) (v : Byte) : (s.writeByte a v).dumps = s.dumps := rfl

/-! ### memWrite2 -/

@[simp] theorem State.memWrite2_regs (s : State) (a : Word) (b0 b1 : Byte) : (s.memWrite2 a b0 b1).regs = s.regs := rfl

@[simp] theorem State.memWrite2_pc (s : State) (a : Word) (b0 b1 : Byte) : (s.memWrite2 a b0 b1).pc = s.pc := rfl

@[simp] theorem State.memWrite2_dir (s : State) (a : Word) (b0 b1 : Byte) : (s.memWrite2 a b0 b1).dir = s.dir := rfl

@[simp] theorem State.memWrite2_err (s : State) (a : Word) (b0 b1 : Byte) : (s.memWrite2 a b0 b1).err = s.err := rfl

@[simp] theorem State.memWrite2_halted (s : State) (a : Word) (b0 b1 : Byte) : (s.memWrite2 a b0 b1).halted = s.halted := rfl

@[simp] theorem State.memWrite2_mem (s : State) (a : Word) (b0 b1 : Byte) : (s.memWrite2 a b0 b1).mem = (s.mem.writeAt a.toNat b0).writeAt (a + 1).toNat b1 := rfl

@[simp] theorem State.memWrite2_dumps (s : State) (a : Word) (b0 b1 : Byte) : (s.memWrite2 a b0 b1).dumps = s.dumps := rfl

/-! ### mem16Write -/

@[simp] theorem State.mem16Write_regs (s : State) (a v : Word) : (s.mem16Write a v).regs = s.regs := rfl

@[simp] theorem State.mem16Write_pc (s : State) (a v : Word) : (s.mem16Write a v).pc = s.pc := rfl

@[simp] theorem State.mem16Write_dir (s : State) (a v : Word) : (s.mem16Write a v).dir = s.dir := rfl

@[simp] theorem State.mem16Write_err (s : State) (a v : Word) : (s.mem16Write a v).err = s.err := rfl

@[simp] theorem State.mem16Write_halted (s : State) (a v : Word) : (s.mem16Write a v).halted = s.halted := rfl

@[simp] theorem State.mem16Write_dumps (s : State) (a v : Word) : (s.mem16Write a v).dumps = s.dumps := rfl

/-! ### setReg -/

@[simp] theorem State.setReg_regs (s : State) (r : Reg) (v : Word) : (s.setReg r v).regs = s.regs.set r.val v := rfl

@[simp] theorem State.setReg_pc (s : State) (r : Reg) (v : Word) : (s.setReg r v).pc = s.pc := rfl

@[simp] theorem State.setReg_dir (s : State) (r : Reg) (v : Word) : (s.setReg r v).dir = s.dir := rfl

@[simp] theorem State.setReg_err (s : State) (r : Reg) (v : Word) : (s.setReg r v).err = s.err := rfl

@[simp] theorem State.setReg_halted (s : State) (r : Reg) (v : Word) : (s.setReg r v).halted = s.halted := rfl

@[simp] theorem State.setReg_mem (s : State) (r : Reg) (v : Word) : (s.setReg r v).mem = s.mem := rfl

@[simp] theorem State.setReg_dumps (s : State) (r : Reg) (v : Word) : (s.setReg r v).dumps = s.dumps := rfl

/-! ### xorReg -/

@[simp] theorem State.xorReg_pc (s : State) (r : Reg) (v : Word) : (s.xorReg r v).pc = s.pc := rfl

@[simp] theorem State.xorReg_dir (s : State) (r : Reg) (v : Word) : (s.xorReg r v).dir = s.dir := rfl

@[simp] theorem State.xorReg_err (s : State) (r : Reg) (v : Word) : (s.xorReg r v).err = s.err := rfl

@[simp] theorem State.xorReg_halted (s : State) (r : Reg) (v : Word) : (s.xorReg r v).halted = s.halted := rfl

@[simp] theorem State.xorReg_mem (s : State) (r : Reg) (v : Word) : (s.xorReg r v).mem = s.mem := rfl

@[simp] theorem State.xorReg_dumps (s : State) (r : Reg) (v : Word) : (s.xorReg r v).dumps = s.dumps := rfl

/-! ### setPc -/

@[simp] theorem State.setPc_regs (s : State) (t : Word) : (s.setPc t).regs = s.regs := rfl

@[simp] theorem State.setPc_pc (s : State) (t : Word) : (s.setPc t).pc = t := rfl

@[simp] theorem State.setPc_dir (s : State) (t : Word) : (s.setPc t).dir = s.dir := rfl

@[simp] theorem State.setPc_err (s : State) (t : Word) : (s.setPc t).err = s.err := rfl

@[simp] theorem State.setPc_halted (s : State) (t : Word) : (s.setPc t).halted = s.halted := rfl

@[simp] theorem State.setPc_mem (s : State) (t : Word) : (s.setPc t).mem = s.mem := rfl

@[simp] theorem State.setPc_dumps (s : State) (t : Word) : (s.setPc t).dumps = s.dumps := rfl

/-! ### advance -/

@[simp] theorem State.advance_regs (s : State) : (s.advance).regs = s.regs := rfl

@[simp] theorem State.advance_pc (s : State) : (s.advance).pc = s.pc + stride s.dir := rfl

@[simp] theorem State.advance_dir (s : State) : (s.advance).dir = s.dir := rfl

@[simp] theorem State.advance_err (s : State) : (s.advance).err = s.err := rfl

@[simp] theorem State.advance_halted (s : State) : (s.advance).halted = s.halted := rfl

@[simp] theorem State.advance_mem (s : State) : (s.advance).mem = s.mem := rfl

@[simp] theorem State.advance_dumps (s : State) : (s.advance).dumps = s.dumps := rfl

/-! ### setErr -/

@[simp] theorem State.setErr_regs (s : State) (e : Option CoreError) : (s.setErr e).regs = s.regs := rfl

@[simp] theorem State.setErr_pc (s : State) (e : Option CoreError) : (s.setErr e).pc = s.pc := rfl

@[simp] theorem State.setErr_dir (s : State) (e : Option CoreError) : (s.setErr e).dir = s.dir := rfl

@[simp] theorem State.setErr_err (s : State) (e : Option CoreError) : (s.setErr e).err = e := rfl

@[simp] theorem State.setErr_halted (s : State) (e : Option CoreError) : (s.setErr e).halted = s.halted := rfl

@[simp] theorem State.setErr_mem (s : State) (e : Option CoreError) : (s.setErr e).mem = s.mem := rfl

@[simp] theorem State.setErr_dumps (s : State) (e : Option CoreError) : (s.setErr e).dumps = s.dumps := rfl

/-! ### raise -/

@[simp] theorem State.raise_regs (s : State) (e : CoreError) : (s.raise e).regs = s.regs := rfl

@[simp] theorem State.raise_pc (s : State) (e : CoreError) : (s.raise e).pc = s.pc := rfl

@[simp] theorem State.raise_dir (s : State) (e : CoreError) : (s.raise e).dir = s.dir := rfl

@[simp] theorem State.raise_err (s : State) (e : CoreError) : (s.raise e).err = some e := rfl

@[simp] theorem State.raise_halted (s : State) (e : CoreError) : (s.raise e).halted = s.halted := rfl

@[simp] theorem State.raise_mem (s : State) (e : CoreError) : (s.raise e).mem = s.mem := rfl

@[simp] theorem State.raise_dumps (s : State) (e : CoreError) : (s.raise e).dumps = s.dumps := rfl

/-! ### clearErr -/

@[simp] theorem State.clearErr_regs (s : State) : (s.clearErr).regs = s.regs := rfl

@[simp] theorem State.clearErr_pc (s : State) : (s.clearErr).pc = s.pc := rfl

@[simp] theorem State.clearErr_dir (s : State) : (s.clearErr).dir = s.dir := rfl

@[simp] theorem State.clearErr_err (s : State) : (s.clearErr).err = none := rfl

@[simp] theorem State.clearErr_halted (s : State) : (s.clearErr).halted = s.halted := rfl

@[simp] theorem State.clearErr_mem (s : State) : (s.clearErr).mem = s.mem := rfl

@[simp] theorem State.clearErr_dumps (s : State) : (s.clearErr).dumps = s.dumps := rfl

/-! ### halt -/

@[simp] theorem State.halt_regs (s : State) : (s.halt).regs = s.regs := rfl

@[simp] theorem State.halt_pc (s : State) : (s.halt).pc = s.pc := rfl

@[simp] theorem State.halt_dir (s : State) : (s.halt).dir = s.dir := rfl

@[simp] theorem State.halt_err (s : State) : (s.halt).err = s.err := rfl

@[simp] theorem State.halt_halted (s : State) : (s.halt).halted = true := rfl

@[simp] theorem State.halt_mem (s : State) : (s.halt).mem = s.mem := rfl

@[simp] theorem State.halt_dumps (s : State) : (s.halt).dumps = s.dumps := rfl

/-! ### emitDump -/

@[simp] theorem State.emitDump_regs (s : State) : (s.emitDump).regs = s.regs := rfl

@[simp] theorem State.emitDump_pc (s : State) : (s.emitDump).pc = s.pc := rfl

@[simp] theorem State.emitDump_dir (s : State) : (s.emitDump).dir = s.dir := rfl

@[simp] theorem State.emitDump_err (s : State) : (s.emitDump).err = s.err := rfl

@[simp] theorem State.emitDump_halted (s : State) : (s.emitDump).halted = s.halted := rfl

@[simp] theorem State.emitDump_mem (s : State) : (s.emitDump).mem = s.mem := rfl

@[simp] theorem State.emitDump_dumps (s : State) : (s.emitDump).dumps = s.dumps ++ [s.regs] := rfl

/-! ### aluWrite -/

@[simp] theorem State.aluWrite_pc (s : State) (f : Word → Word → Word) (a b c : Reg) : (s.aluWrite f a b c).pc = s.pc + stride s.dir := rfl

@[simp] theorem State.aluWrite_dir (s : State) (f : Word → Word → Word) (a b c : Reg) : (s.aluWrite f a b c).dir = s.dir := rfl

@[simp] theorem State.aluWrite_err (s : State) (f : Word → Word → Word) (a b c : Reg) : (s.aluWrite f a b c).err = s.err := rfl

@[simp] theorem State.aluWrite_halted (s : State) (f : Word → Word → Word) (a b c : Reg) : (s.aluWrite f a b c).halted = s.halted := rfl

@[simp] theorem State.aluWrite_mem (s : State) (f : Word → Word → Word) (a b c : Reg) : (s.aluWrite f a b c).mem = s.mem := rfl

@[simp] theorem State.aluWrite_dumps (s : State) (f : Word → Word → Word) (a b c : Reg) : (s.aluWrite f a b c).dumps = s.dumps := rfl

/-! ### permuteRegs -/

@[simp] theorem State.permuteRegs_pc (s : State) (p : ByteInvolution) (a b : Reg) : (s.permuteRegs p a b).pc = s.pc := rfl

@[simp] theorem State.permuteRegs_dir (s : State) (p : ByteInvolution) (a b : Reg) : (s.permuteRegs p a b).dir = s.dir := rfl

@[simp] theorem State.permuteRegs_err (s : State) (p : ByteInvolution) (a b : Reg) : (s.permuteRegs p a b).err = s.err := rfl

@[simp] theorem State.permuteRegs_halted (s : State) (p : ByteInvolution) (a b : Reg) : (s.permuteRegs p a b).halted = s.halted := rfl

@[simp] theorem State.permuteRegs_mem (s : State) (p : ByteInvolution) (a b : Reg) : (s.permuteRegs p a b).mem = s.mem := rfl

@[simp] theorem State.permuteRegs_dumps (s : State) (p : ByteInvolution) (a b : Reg) : (s.permuteRegs p a b).dumps = s.dumps := rfl

/-! ### exchange -/

@[simp] theorem State.exchange_pc (s : State) (a b : Reg) : (s.exchange a b).pc = s.pc := rfl

@[simp] theorem State.exchange_dir (s : State) (a b : Reg) : (s.exchange a b).dir = s.dir := rfl

@[simp] theorem State.exchange_err (s : State) (a b : Reg) : (s.exchange a b).err = s.err := rfl

@[simp] theorem State.exchange_halted (s : State) (a b : Reg) : (s.exchange a b).halted = s.halted := rfl

@[simp] theorem State.exchange_mem (s : State) (a b : Reg) : (s.exchange a b).mem = (s.mem16Write (s.reg b) (s.reg a)).mem := rfl

@[simp] theorem State.exchange_dumps (s : State) (a b : Reg) : (s.exchange a b).dumps = s.dumps := rfl

/-! ### setDir -/

@[simp] theorem setDir_regs (d : Direction) (s : State) : (setDir d s).regs = s.regs := rfl

@[simp] theorem setDir_pc (d : Direction) (s : State) : (setDir d s).pc = s.pc := rfl

@[simp] theorem setDir_dir (d : Direction) (s : State) : (setDir d s).dir = d := rfl

@[simp] theorem setDir_err (d : Direction) (s : State) : (setDir d s).err = s.err := rfl

@[simp] theorem setDir_halted (d : Direction) (s : State) : (setDir d s).halted = s.halted := rfl

@[simp] theorem setDir_mem (d : Direction) (s : State) : (setDir d s).mem = s.mem := rfl

@[simp] theorem setDir_dumps (d : Direction) (s : State) : (setDir d s).dumps = s.dumps := rfl

/-! ### reset -/

@[simp] theorem State.reset_pc : State.reset.pc = 0 := rfl

@[simp] theorem State.reset_dir : State.reset.dir = .forward := rfl

@[simp] theorem State.reset_err : State.reset.err = none := rfl

@[simp] theorem State.reset_halted : State.reset.halted = false := rfl

@[simp] theorem State.reset_mem : State.reset.mem = [] := rfl

@[simp] theorem State.reset_dumps : State.reset.dumps = [] := rfl

/-! ### What a read of a register or of a byte depends on -/

/-- Two states with the same registers read the same. -/
theorem State.reg_congr {s t : State} (h : t.regs = s.regs) (r : Reg) : t.reg r = s.reg r := by
  simp [State.reg, h]

/-- Two states with the same memory read the same. -/
theorem State.readByte_congr {s t : State} (h : t.mem = s.mem) (a : Word) : t.readByte a = s.readByte a := by
  simp [State.readByte, h]

@[simp] theorem State.reg_writeByte (s : State) (a : Word) (v : Byte) (q : Reg) : (s.writeByte a v).reg q = s.reg q := rfl

@[simp] theorem State.reg_memWrite2 (s : State) (a : Word) (b0 b1 : Byte) (q : Reg) : (s.memWrite2 a b0 b1).reg q = s.reg q := rfl

@[simp] theorem State.reg_mem16Write (s : State) (a v : Word) (q : Reg) : (s.mem16Write a v).reg q = s.reg q := rfl

@[simp] theorem State.readByte_setReg (s : State) (r : Reg) (v : Word) (q : Word) : (s.setReg r v).readByte q = s.readByte q := rfl

@[simp] theorem State.readByte_xorReg (s : State) (r : Reg) (v : Word) (q : Word) : (s.xorReg r v).readByte q = s.readByte q := rfl

@[simp] theorem State.reg_setPc (s : State) (t : Word) (q : Reg) : (s.setPc t).reg q = s.reg q := rfl

@[simp] theorem State.readByte_setPc (s : State) (t : Word) (q : Word) : (s.setPc t).readByte q = s.readByte q := rfl

@[simp] theorem State.reg_advance (s : State) (q : Reg) : (s.advance).reg q = s.reg q := rfl

@[simp] theorem State.readByte_advance (s : State) (q : Word) : (s.advance).readByte q = s.readByte q := rfl

@[simp] theorem State.reg_setErr (s : State) (e : Option CoreError) (q : Reg) : (s.setErr e).reg q = s.reg q := rfl

@[simp] theorem State.readByte_setErr (s : State) (e : Option CoreError) (q : Word) : (s.setErr e).readByte q = s.readByte q := rfl

@[simp] theorem State.reg_raise (s : State) (e : CoreError) (q : Reg) : (s.raise e).reg q = s.reg q := rfl

@[simp] theorem State.readByte_raise (s : State) (e : CoreError) (q : Word) : (s.raise e).readByte q = s.readByte q := rfl

@[simp] theorem State.reg_clearErr (s : State) (q : Reg) : (s.clearErr).reg q = s.reg q := rfl

@[simp] theorem State.readByte_clearErr (s : State) (q : Word) : (s.clearErr).readByte q = s.readByte q := rfl

@[simp] theorem State.reg_halt (s : State) (q : Reg) : (s.halt).reg q = s.reg q := rfl

@[simp] theorem State.readByte_halt (s : State) (q : Word) : (s.halt).readByte q = s.readByte q := rfl

@[simp] theorem State.reg_emitDump (s : State) (q : Reg) : (s.emitDump).reg q = s.reg q := rfl

@[simp] theorem State.readByte_emitDump (s : State) (q : Word) : (s.emitDump).readByte q = s.readByte q := rfl

@[simp] theorem State.readByte_aluWrite (s : State) (f : Word → Word → Word) (a b c : Reg) (q : Word) : (s.aluWrite f a b c).readByte q = s.readByte q := rfl

@[simp] theorem State.readByte_permuteRegs (s : State) (p : ByteInvolution) (a b : Reg) (q : Word) : (s.permuteRegs p a b).readByte q = s.readByte q := rfl

end Sys2Proof.Machine
end

