-- ==== Sys2Proof/Laws/Memory.lean ====
section
/-! SUPPORT. Memory: every operation keeps the canonical form, a read after a write, and equal contents make equal
lists. -/

namespace Sys2Proof.Machine

/-! ### The canonical form -/

theorem Memory.wfFrom_cons {lo k : Nat} {v : Byte} {rest : Memory} :
    Memory.wfFrom lo ((k, v) :: rest) = true ↔
      lo ≤ k ∧ k < 65536 ∧ v ≠ fillByte ∧ Memory.wfFrom (k + 1) rest = true := by
  simp [Memory.wfFrom, and_assoc]

theorem Memory.wfFrom_mono {lo lo' : Nat} {m : Memory} (h : lo ≤ lo') (hm : Memory.wfFrom lo' m = true) :
    Memory.wfFrom lo m = true := by
  cases m with
  | nil => rfl
  | cons c rest =>
    obtain ⟨k, v⟩ := c
    rw [Memory.wfFrom_cons] at hm ⊢
    exact ⟨by omega, hm.2⟩

theorem Memory.wfFrom_writeAt {m : Memory} {lo a : Nat} {v : Byte} (hm : Memory.wfFrom lo m = true) (hlo : lo ≤ a)
    (ha : a < 65536) : Memory.wfFrom lo (Memory.writeAt m a v) = true := by
  induction m generalizing lo with
  | nil =>
    by_cases hv : v = fillByte
    · simp [Memory.writeAt, hv, Memory.wfFrom]
    · simp [Memory.writeAt, hv, Memory.wfFrom, hlo, ha]
  | cons c rest ih =>
    obtain ⟨k, w⟩ := c
    have h := Memory.wfFrom_cons.mp hm
    simp only [Memory.writeAt]
    split
    · split
      · exact hm
      · rename_i hak hv
        exact Memory.wfFrom_cons.mpr ⟨hlo, ha, hv, Memory.wfFrom_cons.mpr ⟨by omega, h.2⟩⟩
    · split
      · split
        · exact Memory.wfFrom_mono (by omega) h.2.2.2
        · rename_i hv
          exact Memory.wfFrom_cons.mpr ⟨h.1, h.2.1, hv, h.2.2.2⟩
      · exact Memory.wfFrom_cons.mpr ⟨h.1, h.2.1, h.2.2.1, ih h.2.2.2 (by omega)⟩

/-- A write keeps the canonical form. -/
theorem Memory.wf_writeAt {m : Memory} {a : Nat} (v : Byte) (hm : m.wf = true) (ha : a < 65536) :
    (Memory.writeAt m a v).wf = true :=
  Memory.wfFrom_writeAt hm (Nat.zero_le a) ha

/-- An image load keeps the canonical form. -/
theorem Memory.wf_writeBytes {m : Memory} {a : Nat} {vs : List Byte} (hm : m.wf = true) (ha : a + vs.length ≤ 65536) :
    (Memory.writeBytes m a vs).wf = true := by
  induction vs generalizing m a with
  | nil => exact hm
  | cons v vs ih =>
    simp only [List.length_cons] at ha
    exact ih (Memory.wf_writeAt v hm (by omega)) (by omega)

theorem State.wf_writeByte {s : State} (a : Word) (v : Byte) (h : s.mem.wf = true) : (s.writeByte a v).mem.wf = true :=
  Memory.wf_writeAt v h a.isLt

theorem State.wf_memWrite2 {s : State} (a : Word) (b0 b1 : Byte) (h : s.mem.wf = true) :
    (s.memWrite2 a b0 b1).mem.wf = true :=
  State.wf_writeByte (a + 1) b1 (State.wf_writeByte a b0 h)

theorem State.wf_mem16Write {s : State} (a v : Word) (h : s.mem.wf = true) : (s.mem16Write a v).mem.wf = true :=
  State.wf_memWrite2 a _ _ h

theorem State.wf_exchange {s : State} (a b : Reg) (h : s.mem.wf = true) : (s.exchange a b).mem.wf = true :=
  State.wf_mem16Write (s.reg b) (s.reg a) h

theorem State.wf_reset : State.reset.mem.wf = true := rfl

/-! ### A read after a write -/

theorem Memory.readAt_of_lt {m : Memory} {lo a : Nat} (hm : Memory.wfFrom lo m = true) (h : a < lo) :
    m.readAt a = fillByte := by
  induction m generalizing lo with
  | nil => rfl
  | cons c rest ih =>
    obtain ⟨k, v⟩ := c
    have hw := Memory.wfFrom_cons.mp hm
    have hne : k ≠ a := by omega
    simp only [Memory.readAt, hne, if_false]
    exact ih hw.2.2.2 (by omega)

theorem Memory.readAt_writeAt_same {m : Memory} {lo : Nat} (a : Nat) (v : Byte) (hm : Memory.wfFrom lo m = true) :
    (Memory.writeAt m a v).readAt a = v := by
  induction m generalizing lo with
  | nil =>
    by_cases hv : v = fillByte
    · simp [Memory.writeAt, hv, Memory.readAt]
    · simp [Memory.writeAt, hv, Memory.readAt]
  | cons c rest ih =>
    obtain ⟨k, w⟩ := c
    have hw := Memory.wfFrom_cons.mp hm
    simp only [Memory.writeAt]
    split
    · rename_i hak
      split
      · rename_i hv
        rw [hv]
        exact Memory.readAt_of_lt (lo := k) (Memory.wfFrom_cons.mpr ⟨le_refl k, hw.2⟩) hak
      · simp [Memory.readAt]
    · split
      · rename_i hak
        split
        · rename_i hv
          rw [hv]
          exact Memory.readAt_of_lt hw.2.2.2 (by omega)
        · simp [Memory.readAt, hak]
      · rename_i hne
        simp only [Memory.readAt, if_neg (Ne.symm hne)]
        exact ih hw.2.2.2

theorem Memory.readAt_writeAt_ne (m : Memory) {a a' : Nat} (v : Byte) (h : a' ≠ a) :
    (Memory.writeAt m a v).readAt a' = m.readAt a' := by
  induction m with
  | nil =>
    by_cases hv : v = fillByte
    · simp [Memory.writeAt, hv]
    · simp [Memory.writeAt, hv, Memory.readAt, h.symm]
  | cons c rest ih =>
    obtain ⟨k, w⟩ := c
    simp only [Memory.writeAt]
    split
    · split
      · rfl
      · simp [Memory.readAt, h.symm]
    · split
      · rename_i hak
        subst hak
        split
        · simp [Memory.readAt, h.symm]
        · simp [Memory.readAt, h.symm]
      · simp only [Memory.readAt, ih]

theorem State.readByte_writeByte_same {s : State} (a : Word) (v : Byte) (h : s.mem.wf = true) :
    (s.writeByte a v).readByte a = v :=
  Memory.readAt_writeAt_same a.toNat v h

theorem State.readByte_writeByte_ne (s : State) {a a' : Word} (v : Byte) (h : a' ≠ a) :
    (s.writeByte a v).readByte a' = s.readByte a' :=
  Memory.readAt_writeAt_ne s.mem v (fun e => h (BitVec.eq_of_toNat_eq e))

theorem add_one_ne_self (a : Word) : a + 1 ≠ a := by
  intro h
  have := congrArg BitVec.toNat h
  simp at this
  omega

/-- A two-byte write is read back, whatever the address; it may wrap (R47). -/
theorem State.memRead2_memWrite2_same {s : State} (a : Word) (b0 b1 : Byte) (h : s.mem.wf = true) :
    (s.memWrite2 a b0 b1).memRead2 a = (b0, b1) := by
  have h1 : (s.memWrite2 a b0 b1).readByte a = b0 := by
    rw [State.memWrite2, State.readByte_writeByte_ne _ _ (Ne.symm (add_one_ne_self a)),
      State.readByte_writeByte_same a b0 h]
  have h2 : (s.memWrite2 a b0 b1).readByte (a + 1) = b1 :=
    State.readByte_writeByte_same (a + 1) b1 (State.wf_writeByte a b0 h)
  exact Prod.ext h1 h2

/-- A two-byte write leaves every other byte alone. -/
theorem State.readByte_memWrite2_ne (s : State) {a x : Word} (b0 b1 : Byte) (h0 : x ≠ a) (h1 : x ≠ a + 1) :
    (s.memWrite2 a b0 b1).readByte x = s.readByte x := by
  rw [State.memWrite2, State.readByte_writeByte_ne _ _ h1, State.readByte_writeByte_ne _ _ h0]

/-- The bytes a 16-bit write stores, in MEM_WORD_ORDER (R44). -/
theorem State.memRead2_mem16Write_same {s : State} (a v : Word) (h : s.mem.wf = true) :
    (s.mem16Write a v).memRead2 a = bytesOfWord memWordOrder v :=
  State.memRead2_memWrite2_same a _ _ h

/-- A 16-bit write is read back. -/
theorem State.mem16Read_mem16Write_same {s : State} (a v : Word) (h : s.mem.wf = true) :
    (s.mem16Write a v).mem16Read a = v := by
  rw [State.mem16Read, State.memRead2_mem16Write_same a v h, wordOfBytes_bytesOfWord]

/-- A 16-bit write leaves every other byte alone. -/
theorem State.readByte_mem16Write_ne (s : State) {a x : Word} (v : Word) (h0 : x ≠ a) (h1 : x ≠ a + 1) :
    (s.mem16Write a v).readByte x = s.readByte x :=
  State.readByte_memWrite2_ne s _ _ h0 h1

/-! ### Equal contents, equal lists -/

theorem Memory.eq_of_readAt_eq {m m' : Memory} {lo : Nat} (hm : Memory.wfFrom lo m = true)
    (hm' : Memory.wfFrom lo m' = true) (h : ∀ a, m.readAt a = m'.readAt a) : m = m' := by
  induction m generalizing lo m' with
  | nil =>
    cases m' with
    | nil => rfl
    | cons c rest =>
      obtain ⟨k, v⟩ := c
      have hw := Memory.wfFrom_cons.mp hm'
      exact absurd (by simpa [Memory.readAt] using (h k).symm) hw.2.2.1
  | cons c rest ih =>
    obtain ⟨k, v⟩ := c
    have hw := Memory.wfFrom_cons.mp hm
    cases m' with
    | nil => exact absurd (by simpa [Memory.readAt] using h k) hw.2.2.1
    | cons c' rest' =>
      obtain ⟨k', v'⟩ := c'
      have hw' := Memory.wfFrom_cons.mp hm'
      have hk : k = k' := by
        rcases Nat.lt_trichotomy k k' with hlt | heq | hgt
        · have h2 := h k
          rw [Memory.readAt_of_lt (m := (k', v') :: rest') (lo := k')
            (Memory.wfFrom_cons.mpr ⟨le_refl k', hw'.2⟩) hlt] at h2
          exact absurd (by simpa [Memory.readAt] using h2) hw.2.2.1
        · exact heq
        · have h2 := h k'
          rw [Memory.readAt_of_lt (m := (k, v) :: rest) (lo := k)
            (Memory.wfFrom_cons.mpr ⟨le_refl k, hw.2⟩) hgt] at h2
          exact absurd (by simpa [Memory.readAt] using h2.symm) hw'.2.2.1
      subst hk
      have hv : v = v' := by simpa [Memory.readAt] using h k
      have hrest : rest = rest' := by
        refine ih hw.2.2.2 hw'.2.2.2 (fun a => ?_)
        by_cases hka : k = a
        · rw [Memory.readAt_of_lt hw.2.2.2 (by omega), Memory.readAt_of_lt hw'.2.2.2 (by omega)]
        · simpa [Memory.readAt, hka] using h a
      rw [hv, hrest]

/-- Two memories in canonical form with the same bytes are the same list. -/
theorem State.mem_eq_of_readByte_eq {s t : State} (hs : s.mem.wf = true) (ht : t.mem.wf = true)
    (h : ∀ a, t.readByte a = s.readByte a) : t.mem = s.mem := by
  have beyond : ∀ (m : Memory) (lo a : Nat), Memory.wfFrom lo m = true → 65536 ≤ a → m.readAt a = fillByte := by
    intro m
    induction m with
    | nil => intros; rfl
    | cons c rest ih =>
      intro lo a hm ha
      obtain ⟨k, v⟩ := c
      have hw := Memory.wfFrom_cons.mp hm
      have hne : k ≠ a := by omega
      simp only [Memory.readAt, hne, if_false]
      exact ih (k + 1) a hw.2.2.2 ha
  refine Memory.eq_of_readAt_eq ht hs (fun a => ?_)
  by_cases ha : a < 65536
  · have := h (BitVec.ofNat 16 a)
    simpa [State.readByte, Nat.mod_eq_of_lt ha] using this
  · rw [beyond _ 0 a ht (by omega), beyond _ 0 a hs (by omega)]

end Sys2Proof.Machine
end

