-- ==== Sys2Proof/Laws/Ops.lean ====
section
/-! SUPPORT. What each shared operation over registers and status can do, once: the lemmas to cite instead of unfolding
the operation. -/

namespace Sys2Proof.Machine

/-! ### Registers -/

@[simp] theorem State.reg_setReg_same (s : State) (r : Reg) (v : Word) : (s.setReg r v).reg r = v := by
  simp [State.reg, State.setReg]

theorem State.reg_setReg_ne (s : State) {r q : Reg} (v : Word) (h : q ≠ r) : (s.setReg r v).reg q = s.reg q := by
  have : r.val ≠ q.val := fun e => h (Fin.ext e.symm)
  simp [State.reg, State.setReg, Vector.getElem_set_ne, this]

theorem State.reg_setReg (s : State) (r q : Reg) (v : Word) :
    (s.setReg r v).reg q = if q = r then v else s.reg q := by
  by_cases h : q = r
  · simp [h]
  · rw [State.reg_setReg_ne s v h, if_neg h]

@[simp] theorem State.reg_xorReg_same (s : State) (r : Reg) (v : Word) : (s.xorReg r v).reg r = s.reg r ^^^ v :=
  State.reg_setReg_same s r _

theorem State.reg_xorReg_ne (s : State) {r q : Reg} (v : Word) (h : q ≠ r) : (s.xorReg r v).reg q = s.reg q :=
  State.reg_setReg_ne s _ h

/-- Two register files with the same sixteen registers are equal. -/
theorem State.regs_eq_of_reg_eq {s t : State} (h : ∀ r, t.reg r = s.reg r) : t.regs = s.regs := by
  apply Vector.ext
  intro i hi
  exact h ⟨i, hi⟩

/-- Writing a register with the value it holds changes nothing. -/
theorem State.setReg_reg_self (s : State) (r : Reg) : s.setReg r (s.reg r) = s := by
  have h : (s.setReg r (s.reg r)).regs = s.regs := by
    apply State.regs_eq_of_reg_eq
    intro q
    rw [State.reg_setReg]
    split
    · rename_i e
      rw [e]
    · rfl
  cases s
  simpa [State.setReg] using h

@[simp] theorem State.reg_reset (r : Reg) : State.reset.reg r = 0 := by
  simp [State.reg, State.reset]

@[simp] theorem State.readByte_reset (a : Word) : State.reset.readByte a = 0xFF := rfl

/-- Equal field by field, equal. -/
theorem State.eq_of_fields {s t : State} (hr : ∀ r, t.reg r = s.reg r) (hpc : t.pc = s.pc) (hd : t.dir = s.dir)
    (he : t.err = s.err) (hh : t.halted = s.halted) (hm : t.mem = s.mem) (hu : t.dumps = s.dumps) : t = s := by
  have h := State.regs_eq_of_reg_eq hr
  cases s
  cases t
  simp_all

/-! ### The advance of pc (10_state.md R24) -/

theorem stride_forward : stride .forward = 2 := rfl

theorem stride_backward : stride .backward = -2 := rfl

/-- An advance keeps the parity of pc (R34). -/
theorem isOdd_add_stride (t : Word) (d : Direction) : isOdd (t + stride d) = isOdd t := by
  have h := t.isLt
  have e : (stride d).toNat = 2 ∨ (stride d).toNat = 65534 := by cases d <;> decide
  rw [isOdd_eq, isOdd_eq, BitVec.toNat_add, decide_eq_decide]
  omega

/-- An even pc advances to an even pc (R34). -/
theorem add_stride_even {t : Word} (d : Direction) (h : t.toNat % 2 = 0) : (t + stride d).toNat % 2 = 0 := by
  have e := isOdd_add_stride t d
  rw [isOdd_eq, isOdd_eq, decide_eq_decide] at e
  omega

/-- The spec's formula for the next pc, computed exactly and narrowed, is the model's wrapping addition (R24). -/
theorem nextPc_eq (s : State) : nextPc s = s.pc + stride s.dir := by
  rw [nextPc, BitVec.ofInt_add, BitVec.ofInt_natCast, BitVec.ofNat_toNat, BitVec.setWidth_eq]
  cases s.dir <;> rfl

/-- What an advance does. -/
theorem State.advance_spec (s : State) : s.advance.pc = nextPc s ∧ WritesOnly [] s s.advance :=
  ⟨(nextPc_eq s).symm, fun _ _ => rfl, ⟨rfl, rfl, rfl, rfl⟩, fun _ => rfl⟩

/-! ### The common form of the ALU family (40_alu.md R100) -/

@[simp] theorem State.reg_aluWrite_same (s : State) (f : Word → Word → Word) (a b c : Reg) :
    (s.aluWrite f a b c).reg a = s.reg a ^^^ f (s.reg b) (s.reg c) := by
  simp [State.aluWrite]

theorem State.reg_aluWrite_ne (s : State) (f : Word → Word → Word) {a q : Reg} (b c : Reg) (h : q ≠ a) :
    (s.aluWrite f a b c).reg q = s.reg q := by
  simp [State.aluWrite, State.reg_xorReg_ne _ _ h]

/-- What the common form does: it writes x[a] and advances pc. -/
theorem State.aluWrite_spec (s : State) (f : Word → Word → Word) (a b c : Reg) :
    (s.aluWrite f a b c).reg a = s.reg a ^^^ f (s.reg b) (s.reg c) ∧ (s.aluWrite f a b c).pc = nextPc s ∧
      WritesOnly [a] s (s.aluWrite f a b c) :=
  ⟨State.reg_aluWrite_same s f a b c, (nextPc_eq s).symm,
    fun _ hr => State.reg_aluWrite_ne s f b c (by simpa using hr), ⟨rfl, rfl, rfl, rfl⟩, fun _ => rfl⟩

/-! ### The byte permutation of srr (42_xri_srr.md R142) -/

theorem State.reg_permuteRegs_last (s : State) (p : ByteInvolution) (a b : Reg) :
    (s.permuteRegs p a b).reg b = lastWord (permuteBytes p (gatherBytes (s.reg a) (s.reg b))) := by
  simp [State.permuteRegs]

theorem State.reg_permuteRegs_first (s : State) (p : ByteInvolution) {a b : Reg} (h : a ≠ b) :
    (s.permuteRegs p a b).reg a = firstWord (permuteBytes p (gatherBytes (s.reg a) (s.reg b))) := by
  simp [State.permuteRegs, State.reg_setReg_ne _ _ h]

theorem State.reg_permuteRegs_ne (s : State) (p : ByteInvolution) {a b q : Reg} (ha : q ≠ a) (hb : q ≠ b) :
    (s.permuteRegs p a b).reg q = s.reg q := by
  simp [State.permuteRegs, State.reg_setReg_ne _ _ ha, State.reg_setReg_ne _ _ hb]

/-- The bytes of a pair as the statements number them are the bytes the meaning gathers. -/
theorem pairByte_eq (va vb : Word) (i : Fin 4) : pairByte va vb i = (gatherBytes va vb)[i.val] := by
  obtain ⟨i, hi⟩ := i
  apply BitVec.eq_of_toNat_eq
  have ha := va.isLt
  have hb := vb.isLt
  have e : (vb ++ va : BitVec 32).toNat = vb.toNat * 65536 + va.toNat := by
    rw [BitVec.toNat_append, ← Nat.shiftLeft_add_eq_or_of_lt ha, Nat.shiftLeft_eq]
  have h4 : i = 0 ∨ i = 1 ∨ i = 2 ∨ i = 3 := by omega
  rcases h4 with h | h | h | h <;> subst h <;>
    simp only [pairByte, gatherBytes, BitVec.extractLsb'_toNat, e, Nat.shiftRight_eq_div_pow] <;>
    simp [lowByte_toNat, highByte_toNat] <;> omega

theorem gatherBytes_words (v : Vector Byte 4) : gatherBytes (firstWord v) (lastWord v) = v := by
  apply Vector.ext
  intro i hi
  have : i = 0 ∨ i = 1 ∨ i = 2 ∨ i = 3 := by omega
  rcases this with h | h | h | h <;> subst h <;> simp [gatherBytes, firstWord, lastWord]

theorem permuteBytes_getElem (p : ByteInvolution) (v : Vector Byte 4) (i : Fin 4) :
    (permuteBytes p v)[i.val] = v[(involutionAt p i).val] := by
  revert i
  intro ⟨i, hi⟩
  have : i = 0 ∨ i = 1 ∨ i = 2 ∨ i = 3 := by omega
  rcases this with h | h | h | h <;> subst h <;> simp [permuteBytes]

/-! ### The exchange of srm (43_memory_swap.md R150) -/

@[simp] theorem State.reg_exchange_same (s : State) (a b : Reg) : (s.exchange a b).reg a = s.mem16Read (s.reg b) := by
  simp [State.exchange, State.srmAddress]

theorem State.reg_exchange_ne (s : State) {a q : Reg} (b : Reg) (h : q ≠ a) : (s.exchange a b).reg q = s.reg q := by
  simp [State.exchange, State.reg_setReg_ne _ _ h]

/-- The bytes the exchange stores at x[b]. -/
theorem State.memRead2_exchange (s : State) (a b : Reg) (h : s.mem.wf = true) :
    (s.exchange a b).memRead2 (s.reg b) = bytesOfWord memWordOrder (s.reg a) :=
  State.memRead2_mem16Write_same (s.reg b) (s.reg a) h

theorem State.readByte_exchange_ne (s : State) (a b : Reg) {x : Word} (h0 : x ≠ s.reg b) (h1 : x ≠ s.reg b + 1) :
    (s.exchange a b).readByte x = s.readByte x :=
  State.readByte_mem16Write_ne s (s.reg a) h0 h1

/-- What raising an error does: err is written, and nothing else (R203). -/
theorem State.raise_spec (s : State) (e : CoreError) :
    (s.raise e).err = some e ∧ s.raise e = { s with err := some e } :=
  ⟨rfl, rfl⟩

/-- What a dump does: one event of the sixteen registers, and nothing else (R160). -/
theorem State.emitDump_spec (s : State) : s.emitDump = { s with dumps := s.dumps ++ [s.regs] } := rfl

/-! ### Status (10_state.md R28) -/

theorem State.engine_running {s : State} : s.engine = .running ↔ s.err = none ∧ s.halted = false := by
  unfold State.engine
  cases s.err <;> cases s.halted <;> simp

/-- A step that answers at all is the decoded instruction's (30_encoding.md R66). -/
theorem step_next_inv {s t : State} (h : step s = .next t) :
    s.err = none ∧ s.halted = false ∧ exec (decode s.fetch.1 s.fetch.2) s = .next t := by
  unfold step at h
  split at h
  · rename_i hr
    obtain ⟨h1, h2⟩ := State.engine_running.mp hr
    exact ⟨h1, h2, h⟩
  · cases h
  · cases h

end Sys2Proof.Machine
end

