-- ==== Sys2Proof/Laws/HostInterface.lean ====
section
/-! SUPPORT. What the host's repair of err and its step request can do, once. -/

namespace Sys2Proof.Machine

theorem State.engine_terminated {s : State} : s.engine = .terminated ↔ s.err = none ∧ s.halted = true := by
  unfold State.engine
  cases s.err <;> cases s.halted <;> simp

/-- A repair of err writes it, but for an error on a Terminated core, where it has no effect (R28, R243). -/
theorem repairErr_spec (e : Option CoreError) (s : State) :
    (repairErr e s = s.setErr e ∧ (e = none ∨ s.engine ≠ .terminated)) ∨
      (repairErr e s = s ∧ e ≠ none ∧ s.engine = .terminated) := by
  cases e with
  | none => exact .inl ⟨rfl, .inl rfl⟩
  | some e =>
    by_cases h : s.engine = .terminated
    · exact .inr ⟨by simp [repairErr, h], by simp, h⟩
    · exact .inl ⟨by simp [repairErr, h], .inr h⟩

/-- A repair of err writes nothing but err. -/
theorem repairErr_frame (e : Option CoreError) (s : State) :
    (repairErr e s).regs = s.regs ∧ (repairErr e s).pc = s.pc ∧ (repairErr e s).dir = s.dir ∧
      (repairErr e s).halted = s.halted ∧ (repairErr e s).mem = s.mem ∧ (repairErr e s).dumps = s.dumps := by
  rcases repairErr_spec e s with ⟨h, -⟩ | ⟨h, -⟩ <;> simp [h]

/-- A step request is a step, or leaves the state as it was (R241). -/
theorem stepRequest_spec (s : State) : step s = .next (stepRequest s) ∨ stepRequest s = s := by
  unfold stepRequest
  split
  · rename_i h
    exact .inl h
  · exact .inr rfl
  · exact .inr rfl

end Sys2Proof.Machine
end

