-- ==== Sys2Proof/Laws/PerInstr.lean ====
section
/-! SUPPORT. Laws stated for every instruction, one lemma per constructor of `Instr`. -/

namespace Sys2Proof.Laws

namespace EncodedOpcode

/-- The top nibble of the first byte of an encoding "selects the operation": it is the opcode of the instruction's
mnemonic (R13, R63), and the opcode map takes it back to that mnemonic. -/
def Statement (i : Instr) : Prop :=
  hiNibble (encode i).1 = i.mnemonic.opcode ∧ Mnemonic.ofOpcode (hiNibble (encode i).1) = i.mnemonic

/-- The opcode map and the opcode values agree (R63). -/
theorem ofOpcode_opcode (m : Mnemonic) : Mnemonic.ofOpcode m.opcode = m := by
  cases m <;> rfl

/-- The top nibble of an encoding is the opcode field. -/
theorem hiNibble_encode (i : Instr) : hiNibble (encode i).1 = i.mnemonic.opcode :=
  hiNibble_joinNibbles _ _

theorem add (a b c : Reg) : Statement (.add a b c) :=
  ⟨hiNibble_encode _, (congrArg Mnemonic.ofOpcode (hiNibble_encode _)).trans (ofOpcode_opcode _)⟩

theorem sub (a b c : Reg) : Statement (.sub a b c) :=
  ⟨hiNibble_encode _, (congrArg Mnemonic.ofOpcode (hiNibble_encode _)).trans (ofOpcode_opcode _)⟩

theorem ror (a b c : Reg) : Statement (.ror a b c) :=
  ⟨hiNibble_encode _, (congrArg Mnemonic.ofOpcode (hiNibble_encode _)).trans (ofOpcode_opcode _)⟩

theorem rol (a b c : Reg) : Statement (.rol a b c) :=
  ⟨hiNibble_encode _, (congrArg Mnemonic.ofOpcode (hiNibble_encode _)).trans (ofOpcode_opcode _)⟩

theorem shr (a b c : Reg) : Statement (.shr a b c) :=
  ⟨hiNibble_encode _, (congrArg Mnemonic.ofOpcode (hiNibble_encode _)).trans (ofOpcode_opcode _)⟩

theorem shl (a b c : Reg) : Statement (.shl a b c) :=
  ⟨hiNibble_encode _, (congrArg Mnemonic.ofOpcode (hiNibble_encode _)).trans (ofOpcode_opcode _)⟩

theorem and (a b c : Reg) : Statement (.and a b c) :=
  ⟨hiNibble_encode _, (congrArg Mnemonic.ofOpcode (hiNibble_encode _)).trans (ofOpcode_opcode _)⟩

theorem ora (a b c : Reg) : Statement (.ora a b c) :=
  ⟨hiNibble_encode _, (congrArg Mnemonic.ofOpcode (hiNibble_encode _)).trans (ofOpcode_opcode _)⟩

theorem mul (a b c : Reg) : Statement (.mul a b c) :=
  ⟨hiNibble_encode _, (congrArg Mnemonic.ofOpcode (hiNibble_encode _)).trans (ofOpcode_opcode _)⟩

theorem div (a b c : Reg) : Statement (.div a b c) :=
  ⟨hiNibble_encode _, (congrArg Mnemonic.ofOpcode (hiNibble_encode _)).trans (ofOpcode_opcode _)⟩

theorem cmp (a b c : Reg) : Statement (.cmp a b c) :=
  ⟨hiNibble_encode _, (congrArg Mnemonic.ofOpcode (hiNibble_encode _)).trans (ofOpcode_opcode _)⟩

theorem jeq (a b c : Reg) : Statement (.jeq a b c) :=
  ⟨hiNibble_encode _, (congrArg Mnemonic.ofOpcode (hiNibble_encode _)).trans (ofOpcode_opcode _)⟩

theorem xri (a : Reg) (imm8 : Byte) : Statement (.xri a imm8) :=
  ⟨hiNibble_encode _, (congrArg Mnemonic.ofOpcode (hiNibble_encode _)).trans (ofOpcode_opcode _)⟩

theorem srr (a b : Reg) (ctl : Nibble) : Statement (.srr a b ctl) :=
  ⟨hiNibble_encode _, (congrArg Mnemonic.ofOpcode (hiNibble_encode _)).trans (ofOpcode_opcode _)⟩

theorem srm (a b : Reg) (c : Nibble) : Statement (.srm a b c) :=
  ⟨hiNibble_encode _, (congrArg Mnemonic.ofOpcode (hiNibble_encode _)).trans (ofOpcode_opcode _)⟩

theorem brk (a b c : Nibble) : Statement (.brk a b c) :=
  ⟨hiNibble_encode _, (congrArg Mnemonic.ofOpcode (hiNibble_encode _)).trans (ofOpcode_opcode _)⟩

end EncodedOpcode

end Sys2Proof.Laws
end

