-- ==== Sys2Proof/Tests/Slice0.lean ====
section
/-! SUPPORT. Tests: the spec's worked examples and vectors (95_test_vectors.md; the id is in each comment), one step
each, and a witness for every statement that has hypotheses. Every expected value is the spec's. -/

namespace Sys2Proof.Tests

open Sys2Proof.Machine

/-! ### Helpers -/

/-- The reset state with an image at address 0 and some registers set (95_test_vectors.md, "Conventions"). -/
def boot (image : List Byte) (rs : List (Reg × Word)) : State :=
  rs.foldl (fun s p => s.setReg p.1 p.2)
    { State.reset with mem := Memory.writeBytes [] 0 image }

/-- The state after one step, or the state itself when there is none. -/
def after (s : State) : State := (nextOf (step s)).getD s

/-! ### Well-formedness: one ill-formed line for each check, and a well-formed one -/

theorem test_wf_register_count : AsmStmt.wellFormed ⟨.add, [1, 2]⟩ = false := by decide
theorem test_wf_register_a : AsmStmt.wellFormed ⟨.add, [16, 2, 3]⟩ = false := by decide
theorem test_wf_register_b : AsmStmt.wellFormed ⟨.jeq, [1, 16, 3]⟩ = false := by decide
theorem test_wf_register_c : AsmStmt.wellFormed ⟨.cmp, [1, 2, 16]⟩ = false := by decide
theorem test_wf_xri_register : AsmStmt.wellFormed ⟨.xri, [16, 0]⟩ = false := by decide
theorem test_wf_xri_immediate : AsmStmt.wellFormed ⟨.xri, [1, 256]⟩ = false := by decide
theorem test_wf_srr_register : AsmStmt.wellFormed ⟨.srr, [0, 16, 0]⟩ = false := by decide
theorem test_wf_srr_control : AsmStmt.wellFormed ⟨.srr, [0, 1, 16]⟩ = false := by decide
theorem test_wf_srm_count : AsmStmt.wellFormed ⟨.srm, [0, 1, 2]⟩ = false := by decide
theorem test_wf_srm_register : AsmStmt.wellFormed ⟨.srm, [0, 16]⟩ = false := by decide
theorem test_wf_brk_selector : AsmStmt.wellFormed ⟨.brk, [16, 15]⟩ = false := by decide
theorem test_wf_boundary : AsmStmt.wellFormed ⟨.srr, [15, 15, 15]⟩ = true ∧ AsmStmt.wellFormed ⟨.xri, [15, 255]⟩ = true := by
  decide

/-! ### Decoding: the words of the spec's examples, each constructor once (V-DEC, 40_alu.md to 44_break.md) -/

/-- R101 example, V-DEC-1. -/
theorem test_decode_add : decode 0x01 0x23 = .add 1 2 3 := by decide
/-- R102 example. -/
theorem test_decode_sub : decode 0x11 0x23 = .sub 1 2 3 := by decide
/-- R103 example. -/
theorem test_decode_ror : decode 0x21 0x23 = .ror 1 2 3 := by decide
/-- R104 example. -/
theorem test_decode_rol : decode 0x31 0x23 = .rol 1 2 3 := by decide
/-- R105 example. -/
theorem test_decode_shr : decode 0x41 0x23 = .shr 1 2 3 := by decide
/-- R106 example. -/
theorem test_decode_shl : decode 0x51 0x23 = .shl 1 2 3 := by decide
/-- R107 example. -/
theorem test_decode_and : decode 0x61 0x23 = .and 1 2 3 := by decide
/-- V-DEC-5. -/
theorem test_decode_ora : decode 0x7E 0x81 = .ora 14 8 1 := by decide
/-- R109 example. -/
theorem test_decode_mul : decode 0x83 0x12 = .mul 3 1 2 := by decide
/-- R110 example. -/
theorem test_decode_div : decode 0x93 0x12 = .div 3 1 2 := by decide
/-- V-DEC-4. -/
theorem test_decode_cmp : decode 0xA5 0x3C = .cmp 5 3 12 := by decide
/-- E3, C1. -/
theorem test_decode_jeq : decode 0xB1 0x23 = .jeq 1 2 3 := by decide
/-- V-DEC-6. -/
theorem test_decode_xri : decode 0xC3 0x9F = .xri 3 0x9F := by decide
/-- V-DEC-7 and V-DEC-8. -/
theorem test_decode_srr : decode 0xD2 0x47 = .srr 2 4 7 ∧ decode 0xD2 0x4F = .srr 2 4 15 := by decide
/-- V-DEC-9. -/
theorem test_decode_srm : decode 0xE1 0x2C = .srm 1 2 12 := by decide
/-- V-DEC-10 and V-DEC-3. -/
theorem test_decode_brk : decode 0xF3 0x40 = .brk 3 4 0 ∧ decode 0xFF 0xFF = .brk 15 15 15 := by decide

/-- W = 0xA53C (V-DEC-4): byte0 is bits 15:8. -/
theorem test_decodeTableWord : decodeTableWord 16 0xA53C = some (.cmp 5 3 12) := by decide
/-- The instruction placed at pc is the one fetched. -/
theorem test_withFetchWord : (State.reset.withFetchWord 16 0xC12A).current = .xri 1 0x2A := by decide
/-- R71: halt is `FF F0`; R68: `srm` assembles with c = 0. -/
theorem test_encode : encode (.brk 15 15 0) = (0xFF, 0xF0) ∧ assemble ⟨.srm, [1, 2]⟩ = some (.srm 1 2 0) := by decide

/-! ### The ALU family (2.2) -/

/-- E1, scenario A. -/
theorem test_add_scenario_a :
    let t := after (boot [0x01, 0x23] [(2, 5), (3, 7)])
    t.reg 1 = 0x000C ∧ t.pc = 2 ∧ t.err = none := by decide
/-- V-ADD-3: a = b = c. -/
theorem test_add_same_register : (after (boot [0x01, 0x11] [(1, 3)])).reg 1 = 5 := by decide
/-- V-SUB-1. -/
theorem test_sub_wraps : (after (boot [0x11, 0x23] [(2, 5), (3, 7)])).reg 1 = 0xFFFE := by decide
/-- V-SUB-4: a = b. -/
theorem test_sub_same_register : (after (boot [0x11, 0x13] [(1, 10), (3, 3)])).reg 1 = 0x000D := by decide
/-- V-ROR-1 and V-ROR-2, ROT_WIDTH 32; V-ROR-3. -/
theorem test_ror :
    (after (boot [0x21, 0x23] [(2, 0x1234), (3, 4)])).reg 1 = 0x0123
      ∧ (after (boot [0x21, 0x23] [(2, 0x1234), (3, 0x14)])).reg 1 = 0x0123 := by decide
/-- V-ROR-1, V-ROR-2, V-ROR-5 at ROT_WIDTH 16. -/
theorem test_ror_width16 :
    rorFn .w16 0x1234 4 = 0x4123 ∧ rorFn .w16 1 1 = 0x8000 ∧ rorFn .w16 0xABCD 8 = 0xCDAB ∧ rorFn .w16 0x1234 0x10 = 0x1234 := by
  decide
/-- V-ROL-1 and V-ROL-3, ROT_WIDTH 32. -/
theorem test_rol :
    (after (boot [0x31, 0x23] [(2, 0x1234), (3, 4)])).reg 1 = 0x2340
      ∧ (after (boot [0x31, 0x23] [(2, 0xABCD), (3, 15)])).reg 1 = 0x8000 := by decide
/-- V-ROL-1, V-ROL-2, V-ROL-3 at ROT_WIDTH 16. -/
theorem test_rol_width16 :
    rolFn .w16 0x1234 4 = 0x2341 ∧ rolFn .w16 0x8000 1 = 1 ∧ rolFn .w16 0xABCD 15 = 0xD5E6 := by decide
/-- V-SHR-1 to V-SHR-3, each mode. -/
theorem test_shr :
    (∀ m, shrFn m 0x8000 15 = 1) ∧ shrFn .nibble 0x8000 16 = 0x8000 ∧ shrFn .full 0x8000 16 = 0
      ∧ shrFn .nibble 0x8000 0x11 = 0x4000 ∧ shrFn .full 0x8000 0x11 = 0 := by
  refine ⟨fun m => ?_, ?_⟩
  · cases m <;> decide
  · decide
/-- V-SHL-1 to V-SHL-4, each mode. -/
theorem test_shl :
    (∀ m, shlFn m 0x00FF 8 = 0xFF00 ∧ shlFn m 1 15 = 0x8000) ∧ shlFn .nibble 0x00FF 0x20 = 0x00FF ∧ shlFn .full 0x00FF 0x20 = 0
      ∧ shlFn .nibble 0x00FF 0x18 = 0xFF00 ∧ shlFn .full 0x00FF 0x18 = 0 := by
  refine ⟨fun m => ?_, ?_⟩
  · cases m <;> decide
  · decide
/-- V-AND-1 and V-AND-2. -/
theorem test_and :
    (after (boot [0x61, 0x23] [(2, 0x0F0F), (3, 0x00FF)])).reg 1 = 0x000F
      ∧ (after (boot [0x61, 0x11] [(1, 0x1234)])).reg 1 = 0 := by decide
/-- V-ORA-1 and V-ORA-3. -/
theorem test_ora :
    (after (boot [0x71, 0x23] [(2, 0x0F00), (3, 0x00F0)])).reg 1 = 0x0FF0
      ∧ (after (boot [0x71, 0x22] [(1, 0xBEEF), (2, 0xBEEF)])).reg 1 = 0 := by decide
/-- V-MUL-1 and V-MUL-3. -/
theorem test_mul :
    (after (boot [0x83, 0x12] [(1, 6), (2, 7)])).reg 3 = 0x002A
      ∧ (after (boot [0x81, 0x23] [(2, 0xFFFF), (3, 0xFFFF)])).reg 1 = 1 := by decide
/-- V-DIV-2: division by zero leaves x[a] and advances. -/
theorem test_div_by_zero :
    let t := after (boot [0x91, 0x23] [(1, 0x5555), (2, 9)])
    t.reg 1 = 0x5555 ∧ t.pc = 2 ∧ t.err = none := by decide
/-- V-DIV-1 and V-DIV-3. -/
theorem test_div :
    (after (boot [0x93, 0x12] [(1, 7), (2, 2)])).reg 3 = 3
      ∧ (after (boot [0x91, 0x23] [(2, 0xFFFF), (3, 1)])).reg 1 = 0xFFFF := by decide
/-- V-CMP-1, V-CMP-2 and V-CMP-5. -/
theorem test_cmp :
    (after (boot [0xA5, 0x12] [(1, 6), (2, 7)])).reg 5 = 0xFFFF
      ∧ (after (boot [0xA5, 0x12] [(1, 7), (2, 6)])).reg 5 = 1
      ∧ (after (boot [0xA1, 0x23] [(1, 1), (2, 7), (3, 6)])).reg 1 = 0 := by decide
/-- V-CMP-4, CMP_SIGNED false and true. -/
theorem test_cmp_sign : cmpFn false 0x8000 1 = 1 ∧ cmpFn true 0x8000 1 = 0xFFFF := by decide

/-! ### jeq (2.3) -/

/-- V-JEQ-1: condition false, an odd x[a] is harmless. -/
theorem test_jeq_not_taken :
    let t := after (boot [0xB1, 0x23] [(1, 5), (2, 1), (3, 2)])
    t.pc = 2 ∧ t.err = none ∧ t.reg 1 = 5 := by decide
/-- V-JEQ-3: odd target. -/
theorem test_jeq_misaligned :
    let t := after (boot [0xB1, 0x23] [(1, 3)])
    t.err = some .misalignedJump ∧ t.pc = 0 ∧ t.reg 1 = 3 := by decide
/-- E3, scenario C. -/
theorem test_jeq_mismatched :
    let t := after (boot [0xB1, 0x23] [(1, 4), (2, 5), (3, 5)])
    t.err = some .mismatchedJump ∧ t.pc = 0 ∧ t.reg 1 = 4 := by decide
/-- V-JEQ-4, and E8's second step with dir = -1. -/
theorem test_jeq_taken_and_back :
    let t := after (boot [0xB1, 0x23, 0, 0, 0, 0, 0, 0, 0xB1, 0x23] [(1, 8)])
    let u := after (setDir .backward t)
    t.reg 1 = 0 ∧ t.pc = 8 ∧ u.reg 1 = 8 ∧ u.pc = 0 := by decide
/-- V-JEQ-7: the twin at 0xFFFE. -/
theorem test_jeq_top_of_memory :
    let s := (boot [0xB1, 0x23] [(1, 0xFFFE)]).memWrite2 0xFFFE 0xB1 0x23
    (after s).reg 1 = 0 ∧ (after s).pc = 0xFFFE := by decide

/-- V-ST-7, and R28, R240: on a Terminated core no repair of err, to none or to an error, is a way out; on a Running core
an error is written. -/
theorem test_repair_terminated :
    let t := after State.reset
    t.engine = .terminated ∧ (repair (.err none) t).engine = .terminated ∧
    (repair (.err (some .misalignedJump)) t).engine = .terminated ∧
    (repair (.err (some .misalignedJump)) State.reset).engine = .haltedBy .misalignedJump := by decide

/-! ### xri and srr (2.4, 2.5) -/

/-- E2, scenario B, and V-XRI-3. -/
theorem test_xri :
    (after (boot [0xC1, 0x2A] [])).reg 1 = 42 ∧ (after (boot [0xCF, 0x80] [])).reg 15 = 0x0080 := by decide
/-- V-XRI-1. -/
theorem test_xri_high_byte : (after (boot [0xC1, 0xFF] [(1, 0x1234)])).reg 1 = 0x12CB := by decide
/-- V-SRR-1. -/
theorem test_srr_invalid :
    let t := after (boot [0xD0, 0x1F] [(0, 1), (1, 2)])
    t.err = some .invalidSrrEncoding ∧ t.pc = 0 ∧ t.reg 0 = 1 ∧ t.reg 1 = 2 := by decide
/-- V-SRR-4 to V-SRR-7, V-SRR-9 and V-SRR-10: the data path under the entry each row assumes. -/
theorem test_srr_permutations :
    let s := boot [] [(1, 0x1234), (2, 0x5678)]
    let regs := fun (p : ByteInvolution) => ((s.permuteRegs p 1 2).reg 1, (s.permuteRegs p 1 2).reg 2)
    regs .swap02and13 = (0x5678, 0x1234) ∧ regs .swap01 = (0x3412, 0x5678) ∧ regs .swap03and12 = (0x7856, 0x3412)
      ∧ regs .swap12 = (0x7834, 0x5612) ∧ (s.permuteRegs .swap12 1 1).reg 1 = 0x1212
      ∧ (s.permuteRegs .swap03and12 1 1).reg 1 = 0x3412 := by decide

/-! ### srm (2.6) -/

/-- V-SRM-1. -/
theorem test_srm :
    let t := after (boot [0xE1, 0x20] [(1, 0x1234), (2, 0x80)])
    t.reg 1 = 0xFFFF ∧ t.readByte 0x80 = 0x34 ∧ t.readByte 0x81 = 0x12 ∧ t.pc = 2 := by decide
/-- V-SRM-2: the wrap at 0xFFFF, over the running instruction's own byte. -/
theorem test_srm_wraps :
    let t := after (boot [0xE1, 0x20] [(1, 0xABCD), (2, 0xFFFF)])
    t.reg 1 = 0xE1FF ∧ t.readByte 0xFFFF = 0xCD ∧ t.readByte 0 = 0xAB := by decide
/-- V-SRM-3: a = b. -/
theorem test_srm_same_register :
    let t := after (boot [0xE1, 0x10] [(1, 0x80)])
    t.reg 1 = 0xFFFF ∧ t.readByte 0x80 = 0x80 ∧ t.readByte 0x81 = 0 := by decide

/-! ### brk and the engine's states (2.7, 2.8) -/

/-- V-BRK-2: b = 0, no halt. -/
theorem test_brk_dump :
    let t := after (boot [0xFF, 0x00] [])
    t.dumps.length = 1 ∧ t.pc = 2 ∧ t.halted = false := by decide
/-- V-BRK-5: the dump carries x3, halted, pc stays. -/
theorem test_brk_halts :
    let t := after (boot [0xFF, 0xF7] [(3, 9)])
    t.dumps.map (fun r => r[3]) = [9] ∧ t.halted = true ∧ t.pc = 0 ∧ t.err = none := by decide
/-- E5: the empty image halts at the first step. -/
theorem test_reset_halts :
    let t := after State.reset
    t.halted = true ∧ t.pc = 0 ∧ t.dumps.length = 1 ∧ t.err = none := by decide
/-- V-ST-1 and V-ST-2: no step after an error or after halt-self. -/
theorem test_stopped :
    let t := after (boot [0xB1, 0x23, 0x01, 0x23] [(1, 5)])
    stepRequest t = t ∧ t.err = some .misalignedJump ∧ stepRequest (after State.reset) = after State.reset := by decide
/-- V-ST-4 and V-ST-5: the advance wraps both ways. -/
theorem test_pc_wraps :
    (after ((boot [] []).memWrite2 0xFFFE 0x10 0x00 |>.setPc 0xFFFE)).pc = 0
      ∧ (after (setDir .backward (boot [0x10, 0x00] []))).pc = 0xFFFE := by decide
/-- V-ST-6: a fetch at an odd pc. -/
theorem test_odd_pc :
    let t := after ((boot [0x00, 0xC1, 0x2A] []).setPc 1)
    t.reg 1 = 0x2A ∧ t.pc = 3 := by decide

/-! ### Assembly (R68, E4, V-DEC-6) -/

theorem test_disassemble_srr_invalid :
    disassemble (.srr 0 1 8) = ['s', 'r', 'r', ' ', 'r', '0', ',', ' ', 'r', '1', ',', ' ', 'p', '.', 'i', 'n', 'v', 'a', 'l', 'i', 'd'] := by
  decide
theorem test_disassemble_xri :
    disassemble (.xri 3 0x9F) = ['x', 'r', 'i', ' ', 'r', '3', ',', ' ', '0', 'x', '9', 'F', ',', ' ', '1', '5', '9'] := by decide
theorem test_permutation_names :
    permutationName .identity = ['p', '.', 'A', 'B', 'C', 'D'] ∧ permutationName .swap02and13 = ['p', '.', 'C', 'D', 'A', 'B'] := by
  decide
/-- The optional spaces, the lower-case digit and the decimal immediate of R68. -/
theorem test_readLine :
    (readLine ['x', 'r', 'i', ' ', 'r', 'c', ',', '4', '2']).map assemble = [some (.xri 12 42)] := by decide
/-- R68: "D the same value"; a line whose two literals differ stands for nothing. -/
theorem test_readLine_xri_printed :
    lineAccepted ['x', 'r', 'i', ' ', 'r', '3', ',', ' ', '0', 'x', '9', 'F', ',', ' ', '1', '5', '9'] (.xri 3 0x9F) = true ∧
    readLine ['x', 'r', 'i', ' ', 'r', '3', ',', ' ', '0', 'x', '9', 'F', ',', ' ', '1', '5', '8'] = [] := by decide

/-! ### Witnesses: a state and operands that meet the hypotheses of each statement that has some -/

/-- `jeq r1, r2, r3` at 0 and at 8, x1 = 8 (V-JEQ-4). -/
def twinState : State := boot [0xB1, 0x23, 0, 0, 0, 0, 0, 0, 0xB1, 0x23] [(1, 8)]

/-- `jeq r1, r1, r2` at 0 and at 8, x1 = x2 = 8 (V-JEQ-9). -/
def linkState : State := boot [0xB1, 0x12, 0, 0, 0, 0, 0, 0, 0xB1, 0x12] [(1, 8), (2, 8)]

/-- `sub r0, r0, r0` at 0 (V-SUB-5). -/
def noopState : State := boot [0x10, 0x00] []

theorem witness_running : State.Running .reset ∧ State.Running twinState := by decide

theorem witness_StoppedCoreHasNoStep :
    (State.reset.raise .mismatchedJump).err = some .mismatchedJump ∧ State.reset.halt.err = none ∧ State.reset.halt.halted = true := by
  decide

theorem witness_PcAdvances :
    ∃ t, step noopState = .next t ∧ t.err = none ∧ t.halted = false ∧
      ∀ a b c, noopState.current = .jeq a b c → noopState.reg b ≠ noopState.reg c := by
  refine ⟨_, rfl, by decide, by decide, fun a b c h => ?_⟩
  have e : noopState.current = .sub 0 0 0 := by decide
  rw [e] at h
  cases h

theorem witness_AddResult : State.reset.dir = .forward ∧ State.reset.pc = 0 := by decide

theorem witness_RotatesAreShiftsBelowSixteen : ((boot [] [(3, 15)]).reg 3).toNat < 16 := by decide

theorem witness_DivResult :
    ((boot [] [(3, 0)]).reg 3).toNat = 0 ∧ ((boot [] [(3, 0xFFFF)]).reg 3).toNat ≠ 0 := by decide

theorem witness_CmpResult :
    let s := boot [] [(1, 0xFFFF), (2, 0xFFFE), (3, 0xFFFE)]
    (s.reg 2).toNat = (s.reg 3).toNat ∧ (s.reg 3).toNat < (s.reg 1).toNat ∧ (s.reg 2).toNat < (s.reg 1).toNat := by decide

theorem witness_JeqNotTaken : (boot [] [(2, 1), (3, 2)]).reg 2 ≠ (boot [] [(2, 1), (3, 2)]).reg 3 := by decide

theorem witness_JeqMisaligned :
    let s := boot [] [(1, 0xFFFF)]
    s.reg 2 = s.reg 3 ∧ (s.reg 1).toNat % 2 = 1 := by decide

theorem witness_JeqMismatched_first_byte :
    let s := boot [0xB1, 0x23] [(1, 4)]
    s.reg 2 = s.reg 3 ∧ (s.reg 1).toNat % 2 = 0 ∧ s.readByte (s.reg 1) ≠ (jeqBytes 1 2 3).1 := by decide

theorem witness_JeqMismatched_second_byte :
    let s := boot [0xB1, 0x23, 0xB1, 0x24] [(1, 2)]
    s.reg 2 = s.reg 3 ∧ (s.reg 1).toNat % 2 = 0 ∧ s.readByte (s.reg 1) = (jeqBytes 1 2 3).1
      ∧ s.readByte (s.reg 1 + 1) ≠ (jeqBytes 1 2 3).2 := by decide

theorem witness_JeqTaken :
    let s := (boot [0xB1, 0x23] [(1, 0xFFFE)]).memWrite2 0xFFFE 0xB1 0x23
    s.reg 2 = s.reg 3 ∧ (s.reg 1).toNat % 2 = 0 ∧ s.readByte (s.reg 1) = (jeqBytes 1 2 3).1
      ∧ s.readByte (s.reg 1 + 1) = (jeqBytes 1 2 3).2 := by decide

theorem witness_JumpReachesTwin :
    (∃ t, step twinState = .next t ∧ twinState.current = .jeq 1 2 3 ∧ twinState.reg 2 = twinState.reg 3 ∧ t.err = none) ∧
    (∃ t, step noopState = .next t ∧ t.err = none ∧ t.halted = false) :=
  ⟨⟨_, rfl, by decide⟩, ⟨_, rfl, by decide⟩⟩

theorem witness_JeqReversible :
    twinState.Running ∧ twinState.current = .jeq 1 2 3 ∧ (1 : Reg) ≠ 2 ∧ (1 : Reg) ≠ 3 ∧ twinState.reg 2 = twinState.reg 3 ∧
    twinState.pc.toNat % 2 = 0 ∧ (twinState.reg 1).toNat % 2 = 0 ∧ twinState.memRead2 (twinState.reg 1) = twinState.fetch := by
  decide

theorem witness_JeqFormFallsThrough :
    linkState.Running ∧ linkState.current = .jeq 1 1 2 ∧ (1 : Reg) ≠ 2 ∧ linkState.reg 1 = linkState.reg 2 ∧
    (linkState.reg 2).toNat % 2 = 0 ∧ linkState.memRead2 (linkState.reg 2) = linkState.fetch ∧ linkState.pc ≠ linkState.reg 2 := by
  decide

/-- V-JEQ-6. -/
theorem witness_JeqToItself :
    let s := boot [0xB1, 0x23] []
    s.Running ∧ s.current = .jeq 1 2 3 ∧ s.reg 2 = s.reg 3 ∧ s.reg 1 = s.pc ∧ s.pc.toNat % 2 = 0 := by decide

theorem witness_SrrInvalidControl : 8 ≤ (8 : Nibble).toNat ∧ 8 ≤ (15 : Nibble).toNat := by decide

/-- Both ends of the legal controls; a byte of each kind, for a = b and for a not b. -/
theorem witness_SrrResult :
    (0 : Nibble).toNat < 8 ∧ (7 : Nibble).toNat < 8 ∧ (2 ≤ (2 : Fin 4).val ∨ (1 : Reg) ≠ 1) ∧
    (2 ≤ (0 : Fin 4).val ∨ (1 : Reg) ≠ 2) := by decide

/-- A memory in canonical form and an address that wraps; the bytes outside. -/
theorem witness_SrmResult :
    let s := boot [0xE1, 0x20] [(1, 0xABCD), (2, 0xFFFF)]
    s.mem.wf = true ∧ (1 : Word) ≠ s.srmAddress 2 ∧ (1 : Word) ≠ s.srmAddress 2 + 1 := by decide

theorem witness_FetchSeesSrm : noopState.mem.wf = true ∧ ∃ t, exec (.srm 1 2 0) noopState = .next t :=
  ⟨by decide, _, rfl⟩

theorem witness_BrkDumpsAndAdvances :
    ¬((0xF : Nibble) = 0xF ∧ (0x0 : Nibble) = 0xF) ∧ ¬((0xE : Nibble) = 0xF ∧ (0xF : Nibble) = 0xF) := by decide

theorem witness_OnlyNamedRegistersWritten :
    (∃ t, exec (.add 1 2 3) noopState = .next t ∧ (4 : Reg) ∉ writeSet (.add 1 2 3)) ∧
    (8 ≤ (8 : Nibble).toNat ∧ ∃ t, exec (.srr 0 1 8) noopState = .next t) ∧
    ((boot [] [(2, 1)]).reg 2 ≠ (boot [] [(2, 1)]).reg 3 ∧ ∃ t, exec (.jeq 1 2 3) (boot [] [(2, 1)]) = .next t) ∧
    (noopState.reg 3 = 0 ∧ ∃ t, exec (.div 1 2 3) noopState = .next t) :=
  ⟨⟨_, rfl, by decide⟩, ⟨by decide, _, rfl⟩, ⟨by decide, _, rfl⟩, ⟨by decide, _, rfl⟩⟩

theorem witness_UnnamedRegisterHasNoInfluence : (4 : Reg) ∉ readSet (.jeq 1 2 3) ∧ (15 : Reg) ∉ readSet (.srm 0 1 2) := by decide

theorem witness_OnlySrmWritesMemory :
    (∀ a b c, Instr.jeq 1 2 3 ≠ .srm a b c) ∧ ∃ t, exec (.jeq 1 2 3) twinState = .next t :=
  ⟨fun a b c h => (by cases h), _, rfl⟩

theorem witness_OnlyBrkDumps :
    (∃ t, exec (.brk 0 0 0) noopState = .next t) ∧ (∃ a b c, Instr.brk 0 0 0 = .brk a b c) ∧
    (∃ t, exec (.xri 1 2) noopState = .next t) ∧ (∀ a b c, Instr.xri 1 2 ≠ .brk a b c) :=
  ⟨⟨_, rfl⟩, ⟨_, _, _, rfl⟩, ⟨_, rfl⟩, fun a b c h => by cases h⟩

theorem witness_NoInstructionWritesDir : ∃ t, exec (.sub 0 0 0) (setDir .backward noopState) = .next t := ⟨_, rfl⟩

/-- A taken `jeq`, a `jeq` whose condition is false with an odd x[a], and `srr` with the greatest legal control. -/
theorem witness_NothingElseRaises :
    (∀ a b c, Instr.jeq 1 2 3 = .jeq a b c → twinState.reg b = twinState.reg c →
      (twinState.reg a).toNat % 2 = 0 ∧ twinState.memRead2 (twinState.reg a) = jeqBytes a b c) ∧
    (∀ a b ctl, Instr.jeq 1 2 3 = .srr a b ctl → ctl.toNat < 8) ∧
    (∀ a b c, Instr.jeq 1 2 3 = .jeq a b c → (boot [] [(1, 5), (2, 1)]).reg b = (boot [] [(1, 5), (2, 1)]).reg c →
      ((boot [] [(1, 5), (2, 1)]).reg a).toNat % 2 = 0 ∧
        (boot [] [(1, 5), (2, 1)]).memRead2 ((boot [] [(1, 5), (2, 1)]).reg a) = jeqBytes a b c) ∧
    (∀ a b ctl, Instr.srr 0 1 7 = .srr a b ctl → ctl.toNat < 8) := by
  refine ⟨?_, ?_, ?_, ?_⟩
  · intro a b c h _
    cases h
    decide
  · intro a b ctl h
    cases h
  · intro a b c h e
    cases h
    exact absurd e (by decide)
  · intro a b ctl h
    cases h
    decide

theorem witness_ErrorsHaveTheirCauses :
    (∃ t, step (boot [0xB1, 0x23] [(1, 5)]) = .next t ∧ t.err = some .misalignedJump) ∧
    (∃ t, step (boot [0xB1, 0x23] [(1, 4)]) = .next t ∧ t.err = some .mismatchedJump) ∧
    (∃ t, step (boot [0xD0, 0x18] []) = .next t ∧ t.err = some .invalidSrrEncoding) :=
  ⟨⟨_, rfl, by decide⟩, ⟨_, rfl, by decide⟩, ⟨_, rfl, by decide⟩⟩

theorem witness_ErrorsArePrecise : ∃ t e, step (boot [0xD0, 0x18] []) = .next t ∧ t.err = some e :=
  ⟨_, .invalidSrrEncoding, rfl, by decide⟩

theorem witness_OnlyHaltSelfHalts : ∃ t, step State.reset = .next t ∧ t.halted = true := ⟨_, rfl, by decide⟩

theorem witness_XorInvolution :
    accumulation (.div 1 2 3) = some (1, [2, 3]) ∧ (1 : Reg) ∉ [(2 : Reg), 3] ∧ accumulation (.xri 1 0xFF) = some (1, []) ∧
    ∃ t u, exec (.div 1 2 3) noopState = .next t ∧ exec (.div 1 2 3) t = .next u :=
  ⟨by decide, by decide, by decide, _, _, rfl, rfl⟩

theorem witness_SrrInvolution :
    (1 : Reg) ≠ 2 ∧ (7 : Nibble).toNat < 8 ∧
    ∃ t u, exec (.srr 1 2 7) noopState = .next t ∧ exec (.srr 1 2 7) t = .next u :=
  ⟨by decide, by decide, _, _, rfl, rfl⟩

theorem witness_SrmTwiceRestores :
    noopState.mem.wf = true ∧ (1 : Reg) ≠ 2 ∧
    ∃ t u, exec (.srm 1 2 0) noopState = .next t ∧ exec (.srm 1 2 0) t = .next u :=
  ⟨by decide, by decide, _, _, rfl, rfl⟩

theorem witness_IgnoredFieldsHaveNoEffect :
    ¬((0x0 : Nibble) = 0xF ∧ (0xF : Nibble) = 0xF) ∧ ¬((0xF : Nibble) = 0xF ∧ (0xE : Nibble) = 0xF) := by decide

theorem witness_StepKeepsInvariant : twinState.Inv ∧ ∃ t, step twinState = .next t := ⟨by decide, _, rfl⟩

/-- At reset, and at the odd address 0xFFFF, whose second byte is the one at 0. -/
theorem witness_FillHalts :
    (State.Running .reset ∧ State.reset.readByte State.reset.pc = 0xFF ∧ State.reset.readByte (State.reset.pc + 1) = 0xFF) ∧
    (State.reset.setPc 0xFFFF).Running ∧ (State.reset.setPc 0xFFFF).readByte 0xFFFF = 0xFF ∧
    (State.reset.setPc 0xFFFF).readByte (0xFFFF + 1) = 0xFF := by decide

/-- The longest image, and the shortest that is refused; an address inside an image and one past it. -/
theorem witness_ImageLoad :
    State.reset.mem.wf = true ∧ (List.replicate 65535 (0 : Byte)).length ≤ 65535 ∧
    65535 < (List.replicate 65536 (0 : Byte)).length ∧ (1 : Word).toNat < [(0 : Byte), 0].length ∧
    [(0 : Byte), 0].length ≤ (2 : Word).toNat := by
  rw [List.length_replicate, List.length_replicate]
  decide

/-- The repairs of err to an error and to none, on a Terminated core. -/
theorem witness_OnlyResetLeavesTerminated :
    HostAction.repair (.err (some .mismatchedJump)) ≠ .reset ∧ HostAction.repair (.err none) ≠ .reset ∧
    State.reset.halt.engine = .terminated ∧ State.reset.halt.halted = true ∧
    (∃ t, hostAct (.repair (.err (some .mismatchedJump))) State.reset.halt = .next t) ∧
    ∃ t, hostAct (.repair (.err none)) State.reset.halt = .next t :=
  ⟨by decide, by decide, by decide, by decide, ⟨_, rfl⟩, _, rfl⟩

theorem witness_HostActionsKeepOneStop :
    ¬(State.reset.halt.err ≠ none ∧ State.reset.halt.halted = true) ∧
    ∃ t, hostAct (.repair (.err (some .mismatchedJump))) State.reset.halt = .next t :=
  ⟨by decide, _, rfl⟩

theorem witness_HostActionsKeepMemoryForm :
    noopState.mem.wf = true ∧ ∃ t, hostAct (.load [0xFF, 0x00]) noopState = .next t :=
  ⟨by decide, _, rfl⟩

theorem witness_RepairResumes :
    (State.reset.raise .misalignedJump).err = some .misalignedJump ∧ (State.reset.raise .misalignedJump).halted = false := by decide

theorem witness_HostWritesAreExact :
    noopState.mem.wf = true ∧ (1 : Word) ≠ 0 ∧ noopState.engine ≠ .terminated ∧ State.reset.halt.engine = .terminated := by
  decide

end Sys2Proof.Tests
end

/-! # The effect of one instruction

`Effect i s t` lists, one constructor per outcome, every way the instruction `i` takes a state `s` to a next state `t`.
`exec_eq_next_iff` ties it to `exec`; the statements about all instructions below are case splits on it. -/

namespace Sys2Proof.Machine

/-! ## The common form of the ALU family -/

/-- The function f and the registers a, b, c of an instruction of the common form x[a] <- x[a] ^ f(x[b], x[c])
(40_alu.md R100). `div` has it too: its quotient by zero is 0, and XORing 0 into x[a] is R110's no-op (`exec_div`). -/
def aluForm? : Instr → Option ((Word → Word → Word) × Reg × Reg × Reg)
  | .add a b c => some (addFn, a, b, c)
  | .sub a b c => some (subFn, a, b, c)
  | .ror a b c => some (rorFn rotWidth, a, b, c)
  | .rol a b c => some (rolFn rotWidth, a, b, c)
  | .shr a b c => some (shrFn shiftMode, a, b, c)
  | .shl a b c => some (shlFn shiftMode, a, b, c)
  | .and a b c => some (andFn, a, b, c)
  | .ora a b c => some (oraFn, a, b, c)
  | .mul a b c => some (mulFn, a, b, c)
  | .div a b c => some (divFn, a, b, c)
  | .cmp a b c => some (cmpFn cmpSigned, a, b, c)
  | .jeq _ _ _ => none
  | .xri _ _ => none
  | .srr _ _ _ => none
  | .srm _ _ _ => none
  | .brk _ _ _ => none

theorem writeSet_of_aluForm {i : Instr} {f : Word → Word → Word} {a b c : Reg} (h : aluForm? i = some (f, a, b, c)) :
    writeSet i = [a] := by
  cases i <;> cases h <;> rfl

theorem readSet_of_aluForm {i : Instr} {f : Word → Word → Word} {a b c : Reg} (h : aluForm? i = some (f, a, b, c)) :
    readSet i = [a, b, c] := by
  cases i <;> cases h <;> rfl

@[simp] theorem divFn_zero (v : Word) : divFn v 0 = 0 := BitVec.udiv_zero

theorem State.xorReg_zero (s : State) (r : Reg) : s.xorReg r 0 = s := by
  simpa [State.xorReg] using s.setReg_reg_self r

theorem State.aluWrite_divFn_zero {s : State} {c : Reg} (a b : Reg) (h : s.reg c = 0) :
    s.aluWrite divFn a b c = s.advance := by
  rw [State.aluWrite, h, divFn_zero, State.xorReg_zero]

/-- A division by zero only advances (R110). -/
theorem exec_div_zero {s : State} {c : Reg} (a b : Reg) (h : s.reg c = 0) :
    exec (.div a b c) s = .next s.advance :=
  if_pos h

theorem exec_div (a b c : Reg) (s : State) : exec (.div a b c) s = .next (s.aluWrite divFn a b c) := by
  by_cases h : s.reg c = 0
  · rw [exec_div_zero a b h, State.aluWrite_divFn_zero a b h]
  · exact if_neg h

theorem exec_alu {i : Instr} {f : Word → Word → Word} {a b c : Reg} (h : aluForm? i = some (f, a, b, c)) (s : State) :
    exec i s = .next (s.aluWrite f a b c) := by
  cases i with
  | div a b c => cases h; exact exec_div a b c s
  | _ => cases h <;> rfl

/-! ## Every outcome of an instruction -/

theorem selectsHalt_iff (a b : Nibble) : selectsHalt a b = true ↔ a = 0xF ∧ b = 0xF := by
  simp [selectsHalt]

/-- The next states of an instruction, one constructor per outcome. -/
inductive Effect : Instr → State → State → Prop where
  /-- R100 to R111 -/
  | alu {i : Instr} {f : Word → Word → Word} {a b c : Reg} {s : State} (form : aluForm? i = some (f, a, b, c)) :
      Effect i s (s.aluWrite f a b c)
  /-- R130, condition false -/
  | jeqNotTaken {a b c : Reg} {s : State} (differ : s.reg b ≠ s.reg c) : Effect (.jeq a b c) s s.advance
  /-- R130, R200 -/
  | jeqMisaligned {a b c : Reg} {s : State} (equal : s.reg b = s.reg c) (odd : isOdd (s.reg a) = true) :
      Effect (.jeq a b c) s (s.raise .misalignedJump)
  /-- R130, R200 -/
  | jeqMismatched {a b c : Reg} {s : State} (equal : s.reg b = s.reg c) (even : isOdd (s.reg a) = false)
      (other : s.memRead2 (s.reg a) ≠ encode (.jeq a b c)) : Effect (.jeq a b c) s (s.raise .mismatchedJump)
  /-- R130, the jump taken -/
  | jeqTaken {a b c : Reg} {s : State} (equal : s.reg b = s.reg c) (even : isOdd (s.reg a) = false)
      (twin : s.memRead2 (s.reg a) = encode (.jeq a b c)) :
      Effect (.jeq a b c) s ((s.setReg a s.pc).setPc (s.reg a))
  /-- R140 -/
  | xri {a : Reg} {imm8 : Byte} {s : State} : Effect (.xri a imm8) s (s.xorReg a (immWord imm8)).advance
  /-- R142, a control of 8 to 15 -/
  | srrInvalid {a b : Reg} {ctl : Nibble} {s : State} (invalid : 8 ≤ ctl.toNat) :
      Effect (.srr a b ctl) s (s.raise .invalidSrrEncoding)
  /-- R142, a control of 0 to 7 -/
  | srr {a b : Reg} {ctl : Nibble} {s : State} (legal : ctl.toNat < 8) :
      Effect (.srr a b ctl) s (s.permuteRegs (srrEntry ⟨ctl.toNat, legal⟩) a b).advance
  /-- R150 -/
  | srm {a b : Reg} {c : Nibble} {s : State} : Effect (.srm a b c) s (s.exchange a b).advance
  /-- R161 -/
  | brkHalt {c : Nibble} {s : State} : Effect (.brk 0xF 0xF c) s s.emitDump.halt
  /-- R160 -/
  | brkDump {a b c : Nibble} {s : State} (goesOn : ¬(a = 0xF ∧ b = 0xF)) : Effect (.brk a b c) s s.emitDump.advance

/-- Every instruction has an outcome in every state. -/
theorem effect_total (i : Instr) (s : State) : ∃ t, Effect i s t := by
  cases i with
  | jeq a b c =>
    by_cases equal : s.reg b = s.reg c
    · cases odd : isOdd (s.reg a) with
      | true => exact ⟨_, .jeqMisaligned equal odd⟩
      | false =>
        by_cases twin : s.memRead2 (s.reg a) = encode (.jeq a b c)
        · exact ⟨_, .jeqTaken equal odd twin⟩
        · exact ⟨_, .jeqMismatched equal odd twin⟩
    · exact ⟨_, .jeqNotTaken equal⟩
  | xri a imm8 => exact ⟨_, .xri⟩
  | srr a b ctl =>
    by_cases legal : ctl.toNat < 8
    · exact ⟨_, .srr legal⟩
    · exact ⟨_, .srrInvalid (Nat.not_lt.mp legal)⟩
  | srm a b c => exact ⟨_, .srm⟩
  | brk a b c =>
    by_cases halts : a = 0xF ∧ b = 0xF
    · obtain ⟨rfl, rfl⟩ := halts
      exact ⟨_, .brkHalt⟩
    · exact ⟨_, .brkDump halts⟩
  | _ => exact ⟨_, .alu rfl⟩

/-- `exec` answers the outcome. -/
theorem Effect.exec_eq {i : Instr} {s t : State} (h : Effect i s t) : exec i s = .next t := by
  cases h with
  | alu form => exact exec_alu form s
  | jeqNotTaken differ => simp [exec, execJeq, differ]
  | jeqMisaligned equal odd => simp [exec, execJeq, State.jeqTarget, equal, odd]
  | jeqMismatched equal even other => simp [exec, execJeq, State.jeqTarget, equal, even, other]
  | jeqTaken equal even twin => simp [exec, execJeq, State.jeqTarget, equal, even, twin]
  | xri => rfl
  | srrInvalid invalid => simp [exec, execSrr, srrIndex_of_ge invalid]
  | srr legal => simp [exec, execSrr, srrIndex_of_lt legal]
  | srm => rfl
  | brkHalt => rfl
  | brkDump goesOn => exact if_neg (mt (selectsHalt_iff _ _).mp goesOn)

/-- The next states of `exec` are exactly the outcomes listed. -/
theorem exec_eq_next_iff {i : Instr} {s t : State} : exec i s = .next t ↔ Effect i s t := by
  refine ⟨fun h => ?_, Effect.exec_eq⟩
  obtain ⟨u, hu⟩ := effect_total i s
  have e : Host.Outcome.next t = .next u := h.symm.trans hu.exec_eq
  cases e
  exact hu

/-- A step that answers a next state is an outcome of the instruction at pc, on a Running core (R66). -/
theorem effect_of_step {s t : State} (h : step s = .next t) : s.Running ∧ Effect s.current s t := by
  obtain ⟨herr, hhalted, hexec⟩ := step_next_inv h
  exact ⟨⟨herr, hhalted⟩, exec_eq_next_iff.mp hexec⟩

/-! ## Registers an instruction writes (10_state.md R22) -/

/-- No outcome writes a register outside the write set. -/
theorem Effect.sameRegsBut {i : Instr} {s t : State} (h : Effect i s t) : SameRegsBut (writeSet i) s t := by
  intro r hr
  cases h with
  | alu form =>
    rw [writeSet_of_aluForm form, List.mem_singleton] at hr
    exact State.reg_aluWrite_ne s _ _ _ hr
  | jeqTaken => exact State.reg_setReg_ne s _ (List.mem_singleton.not.mp hr)
  | xri => exact State.reg_xorReg_ne s _ (List.mem_singleton.not.mp hr)
  | srr =>
    obtain ⟨ha, hb⟩ : r ≠ _ ∧ r ≠ _ := by simpa [writeSet] using hr
    exact State.reg_permuteRegs_ne s _ ha hb
  | srm => exact State.reg_exchange_ne s _ (List.mem_singleton.not.mp hr)
  | jeqNotTaken | jeqMisaligned | jeqMismatched | srrInvalid | brkHalt | brkDump => rfl

theorem exec_srr_invalid {ctl : Nibble} (a b : Reg) (s : State) (invalid : 8 ≤ ctl.toNat) :
    exec (.srr a b ctl) s = .next (s.raise .invalidSrrEncoding) :=
  (Effect.srrInvalid invalid).exec_eq

theorem exec_jeq_not_taken {b c : Reg} {s : State} (a : Reg) (differ : s.reg b ≠ s.reg c) :
    exec (.jeq a b c) s = .next s.advance :=
  (Effect.jeqNotTaken differ).exec_eq

/-! ## Registers an instruction reads (10_state.md R22) -/

/-- Writes of two registers commute. -/
theorem State.setReg_comm (s : State) {q r : Reg} (v w : Word) (h : q ≠ r) :
    (s.setReg q v).setReg r w = (s.setReg r w).setReg q v := by
  have hval : q.val ≠ r.val := fun e => h (Fin.ext e)
  simp [State.setReg, Vector.set_comm _ _ hval]

theorem State.xorReg_setReg (s : State) {q r : Reg} (v w : Word) (h : q ≠ r) :
    (s.setReg q v).xorReg r w = (s.xorReg r w).setReg q v := by
  rw [State.xorReg, State.reg_setReg_ne s v h.symm, State.setReg_comm s _ _ h]
  rfl

theorem State.aluWrite_setReg (s : State) (f : Word → Word → Word) {q a b c : Reg} (v : Word)
    (ha : q ≠ a) (hb : q ≠ b) (hc : q ≠ c) :
    (s.setReg q v).aluWrite f a b c = (s.aluWrite f a b c).setReg q v := by
  rw [State.aluWrite, State.reg_setReg_ne s v hb.symm, State.reg_setReg_ne s v hc.symm, State.xorReg_setReg s _ _ ha]
  rfl

theorem State.permuteRegs_setReg (s : State) (p : ByteInvolution) {q a b : Reg} (v : Word) (ha : q ≠ a) (hb : q ≠ b) :
    (s.setReg q v).permuteRegs p a b = (s.permuteRegs p a b).setReg q v := by
  rw [State.permuteRegs, State.reg_setReg_ne s v ha.symm, State.reg_setReg_ne s v hb.symm, State.setReg_comm s _ _ ha,
    State.setReg_comm _ _ _ hb]
  rfl

theorem State.exchange_setReg (s : State) {q a b : Reg} (v : Word) (ha : q ≠ a) (hb : q ≠ b) :
    (s.setReg q v).exchange a b = (s.exchange a b).setReg q v := by
  rw [State.exchange, State.srmAddress, State.reg_setReg_ne s v ha.symm, State.reg_setReg_ne s v hb.symm]
  exact State.setReg_comm (s.mem16Write (s.reg b) (s.reg a)) _ _ ha

theorem State.reg_setReg_of_unread_jeq (s : State) {q a b c : Reg} (v : Word) (hq : q ∉ readSet (.jeq a b c)) :
    (s.setReg q v).reg a = s.reg a ∧ (s.setReg q v).reg b = s.reg b ∧ (s.setReg q v).reg c = s.reg c := by
  obtain ⟨ha, hb, hc⟩ : q ≠ a ∧ q ≠ b ∧ q ≠ c := by simpa [readSet] using hq
  exact ⟨State.reg_setReg_ne s v ha.symm, State.reg_setReg_ne s v hb.symm, State.reg_setReg_ne s v hc.symm⟩

/-- Writing a register that the instruction does not read, before it or after it, is the same: the outcome is of the same
kind, from the same values. -/
theorem Effect.setReg {i : Instr} {s t : State} {q : Reg} (v : Word) (h : Effect i s t) (hq : q ∉ readSet i) :
    Effect i (s.setReg q v) (t.setReg q v) := by
  cases h with
  | alu form =>
    obtain ⟨ha, hb, hc⟩ : q ≠ _ ∧ q ≠ _ ∧ q ≠ _ := by simpa [readSet_of_aluForm form] using hq
    rw [← State.aluWrite_setReg s _ v ha hb hc]
    exact .alu form
  | jeqNotTaken differ =>
    obtain ⟨-, kb, kc⟩ := s.reg_setReg_of_unread_jeq v hq
    exact .jeqNotTaken (by rwa [kb, kc])
  | jeqMisaligned equal odd =>
    obtain ⟨ka, kb, kc⟩ := s.reg_setReg_of_unread_jeq v hq
    exact .jeqMisaligned (by rwa [kb, kc]) (by rwa [ka])
  | jeqMismatched equal even other =>
    obtain ⟨ka, kb, kc⟩ := s.reg_setReg_of_unread_jeq v hq
    exact .jeqMismatched (by rwa [kb, kc]) (by rwa [ka]) (by rw [ka]; exact other)
  | @jeqTaken a b c _ equal even twin =>
    obtain ⟨ka, kb, kc⟩ := s.reg_setReg_of_unread_jeq v hq
    have ha : q ≠ a := fun e => hq (by simp [readSet, e])
    have taken : Effect (.jeq a b c) (s.setReg q v) (((s.setReg q v).setReg a s.pc).setPc ((s.setReg q v).reg a)) :=
      .jeqTaken (by rwa [kb, kc]) (by rwa [ka]) (by rw [ka]; exact twin)
    rwa [ka, State.setReg_comm s v s.pc ha] at taken
  | @xri a imm8 =>
    have xored : Effect (.xri a imm8) (s.setReg q v) ((s.setReg q v).xorReg a (immWord imm8)).advance := .xri
    rwa [State.xorReg_setReg s v _ (List.mem_singleton.not.mp hq)] at xored
  | srrInvalid invalid => exact .srrInvalid invalid
  | @srr a b ctl _ legal =>
    obtain ⟨ha, hb⟩ : q ≠ a ∧ q ≠ b := by simpa [readSet] using hq
    have permuted := Effect.srr (a := a) (b := b) (s := s.setReg q v) legal
    rwa [State.permuteRegs_setReg s _ v ha hb] at permuted
  | @srm a b c =>
    obtain ⟨ha, hb⟩ : q ≠ a ∧ q ≠ b := by simpa [readSet] using hq
    have exchanged : Effect (.srm a b c) (s.setReg q v) ((s.setReg q v).exchange a b).advance := .srm
    rwa [State.exchange_setReg s v ha hb] at exchanged
  | brkHalt | brkDump => exact absurd (List.mem_finRange q) hq

/-! ## pc, dir and memory -/

/-- An outcome without an error, a halt or a jump is an advance of pc (R24). -/
theorem Effect.pc_cases {i : Instr} {s t : State} (h : Effect i s t) :
    t.pc = nextPc s ∨ (t.pc = s.pc ∧ (t.err ≠ none ∨ t.halted = true)) ∨
      ∃ a b c, i = .jeq a b c ∧ s.reg b = s.reg c ∧ isOdd (s.reg a) = false ∧ t.pc = s.reg a := by
  have advanced : s.pc + stride s.dir = nextPc s := (nextPc_eq s).symm
  cases h with
  | alu | jeqNotTaken | xri | srr | srm | brkDump => exact .inl advanced
  | jeqMisaligned | jeqMismatched | srrInvalid => exact .inr (.inl ⟨rfl, .inl (by simp)⟩)
  | brkHalt => exact .inr (.inl ⟨rfl, .inr rfl⟩)
  | jeqTaken equal even => exact .inr (.inr ⟨_, _, _, rfl, equal, even, rfl⟩)

theorem nextPc_even {s : State} (h : s.pc.toNat % 2 = 0) : (nextPc s).toNat % 2 = 0 := by
  rw [nextPc_eq]
  exact add_stride_even s.dir h

theorem even_of_not_isOdd {t : Word} (h : isOdd t = false) : t.toNat % 2 = 0 := by
  rw [isOdd_eq, decide_eq_false_iff_not] at h
  omega

/-- pc stays even: an advance keeps its parity, an error or a halt keeps pc, and a jump is taken to an even target only
(R34). -/
theorem Effect.pc_even {i : Instr} {s t : State} (h : Effect i s t) (even : s.pc.toNat % 2 = 0) :
    t.pc.toNat % 2 = 0 := by
  rcases h.pc_cases with hpc | ⟨hpc, -⟩ | ⟨a, b, c, -, -, target, hpc⟩ <;> rw [hpc]
  · exact nextPc_even even
  · exact even
  · exact even_of_not_isOdd target

theorem Effect.dir_eq {i : Instr} {s t : State} (h : Effect i s t) : t.dir = s.dir := by
  cases h <;> rfl

/-- Only the exchange of `srm` writes memory, and it keeps the canonical form. -/
theorem Effect.mem_wf {i : Instr} {s t : State} (h : Effect i s t) (wf : s.mem.wf = true) : t.mem.wf = true := by
  cases h with
  | srm => exact State.wf_exchange _ _ wf
  | _ => exact wf

/-! ## err and halted -/

/-- halted is set by halt-self only, which leaves err as it was (R27, R161). -/
theorem Effect.halted_cases {i : Instr} {s t : State} (h : Effect i s t) :
    t.halted = s.halted ∨ ((∃ c, i = .brk 0xF 0xF c) ∧ t.err = s.err) := by
  cases h with
  | brkHalt => exact .inr ⟨⟨_, rfl⟩, rfl⟩
  | _ => exact .inl rfl

/-- An error and a halt are never both the outcome on a Running core (R205). -/
theorem Effect.oneStop {i : Instr} {s t : State} (h : Effect i s t) (running : s.Running) :
    ¬(t.err ≠ none ∧ t.halted = true) := by
  rintro ⟨herr, hhalted⟩
  obtain ⟨noErr, notHalted⟩ := running
  rcases h.halted_cases with same | ⟨-, same⟩
  · simp [same, notHalted] at hhalted
  · exact herr (same.trans noErr)

/-! ## A core that is not Running -/

theorem step_of_err {s : State} {e : CoreError} (h : s.err = some e) : step s = .fault (.haltedByError e) := by
  simp [step, State.engine, h]

theorem step_of_terminated {s : State} (h : s.engine = .terminated) : step s = .fault .terminated := by
  simp [step, h]

theorem stepRequest_of_fault {s : State} {r : Fault} (h : step s = .fault r) : stepRequest s = s := by
  simp [stepRequest, h]

theorem not_step_of_halted {s t : State} (halted : s.halted = true) : step s ≠ .next t := by
  intro h
  obtain ⟨⟨-, notHalted⟩, -⟩ := effect_of_step h
  simp [halted] at notHalted

/-! ## The host's actions -/

theorem loadImage_next {image : List Byte} {s t : State} (h : loadImage image s = .next t) :
    t = { s with mem := s.mem.writeBytes 0 image } := by
  unfold loadImage at h
  split at h
  · cases h; rfl
  · cases h

/-- What a host action other than RESET does to err and halted: it is a step, or it keeps both, or it is a repair of err,
which writes no error on a Terminated core and keeps halted (R240 to R244). -/
theorem hostAct_status {act : HostAction} {s t : State} (noReset : act ≠ .reset) (h : hostAct act s = .next t) :
    step s = .next t ∨ (t.err = s.err ∧ t.halted = s.halted) ∨
      (t.halted = s.halted ∧ (t.err = none ∨ s.engine ≠ .terminated)) := by
  cases act with
  | reset => exact absurd rfl noReset
  | load image =>
    rw [loadImage_next h]
    exact .inr (.inl ⟨rfl, rfl⟩)
  | step =>
    cases h
    rcases stepRequest_spec s with stepped | same
    · exact .inl stepped
    · exact .inr (.inl (by rw [same]; exact ⟨rfl, rfl⟩))
  | repair w =>
    cases h
    cases w with
    | err e =>
      rcases repairErr_spec e s with ⟨written, allowed⟩ | ⟨same, -⟩
      · exact .inr (.inr (by simpa [repair, written] using allowed))
      · exact .inr (.inl (by simp [repair, same]))
    | reg | pc | dir | mem => exact .inr (.inl ⟨rfl, rfl⟩)
  | setDir | read =>
    cases h
    exact .inr (.inl ⟨rfl, rfl⟩)

/-- No host action but RESET clears halted (R27). -/
theorem hostAct_keeps_halted {act : HostAction} {s t : State} (noReset : act ≠ .reset) (halted : s.halted = true)
    (h : hostAct act s = .next t) : t.halted = true := by
  rcases hostAct_status noReset h with stepped | ⟨-, same⟩ | ⟨same, -⟩
  · exact absurd stepped (not_step_of_halted halted)
  · exact same.trans halted
  · exact same.trans halted

/-- No host action but RESET leaves Terminated (R28, R213). -/
theorem hostAct_keeps_terminated {act : HostAction} {s t : State} (noReset : act ≠ .reset)
    (terminated : s.engine = .terminated) (h : hostAct act s = .next t) : t.engine = .terminated := by
  obtain ⟨noErr, halted⟩ := State.engine_terminated.mp terminated
  refine State.engine_terminated.mpr ⟨?_, hostAct_keeps_halted noReset halted h⟩
  rcases hostAct_status noReset h with stepped | ⟨same, -⟩ | ⟨-, err | notTerminated⟩
  · exact absurd stepped (not_step_of_halted halted)
  · exact same.trans noErr
  · exact err
  · exact absurd terminated notTerminated

/-! ## The statements -/

/-- Settles O50: the three parts of the invariant, each kept by every outcome of an instruction. -/
theorem stepKeepsInvariant : Obligations.StepKeepsInvariant := by
  rintro s t ⟨wf, even, -⟩ h
  obtain ⟨running, effect⟩ := effect_of_step h
  exact ⟨effect.mem_wf wf, effect.pc_even even, effect.oneStop running⟩

/-- Settles O51. -/
theorem resetHasInvariant : Obligations.ResetHasInvariant :=
  ⟨State.wf_reset, rfl, fun both => both.1 rfl⟩

/-- Settles O9: each stopped state makes `step` answer its fault, and a fault makes a step request do nothing. -/
theorem stoppedCoreHasNoStep : Obligations.StoppedCoreHasNoStep := by
  refine ⟨fun s e herr => ?_, fun s herr hhalted => ?_⟩
  · have fault := step_of_err herr
    exact ⟨fault, stepRequest_of_fault fault⟩
  · have fault := step_of_terminated (State.engine_terminated.mpr ⟨herr, hhalted⟩)
    exact ⟨fault, stepRequest_of_fault fault⟩

/-- Settles O10: of the three things an outcome does to pc, the hypotheses leave the advance. -/
theorem pcAdvances : Obligations.PcAdvances := by
  intro s t h noErr notHalted noJump
  obtain ⟨-, effect⟩ := effect_of_step h
  rcases effect.pc_cases with advanced | ⟨-, stopped⟩ | ⟨a, b, c, jeq, equal, -⟩
  · exact advanced
  · simp [noErr, notHalted] at stopped
  · exact absurd equal (noJump a b c jeq)

/-- Settles O37: the write set bounds every outcome, and the outcomes that write nothing are named. -/
theorem onlyNamedRegistersWritten : Obligations.OnlyNamedRegistersWritten := by
  refine ⟨fun i s t h => (exec_eq_next_iff.mp h).sameRegsBut, fun a b ctl s t invalid h => ?_,
    fun a b c s t differ h => ?_, fun a b c s t zero h => ?_⟩
  · cases (exec_srr_invalid a b s invalid).symm.trans h
    exact fun _ _ => rfl
  · cases (exec_jeq_not_taken a differ).symm.trans h
    exact fun _ _ => rfl
  · cases (exec_div_zero a b zero).symm.trans h
    exact fun _ _ => rfl

/-- Settles O38: the outcome exists, and a write of an unread register commutes with it. -/
theorem unnamedRegisterHasNoInfluence : Obligations.UnnamedRegisterHasNoInfluence := by
  intro i s q v hq
  obtain ⟨t, effect⟩ := effect_total i s
  exact ⟨t, effect.exec_eq, (effect.setReg v hq).exec_eq⟩

/-- Settles O41. -/
theorem noInstructionWritesDir : Obligations.NoInstructionWritesDir :=
  fun _ _ _ h => (exec_eq_next_iff.mp h).dir_eq

/-- Settles O45: the core was Running, so halted was set by the step. -/
theorem onlyHaltSelfHalts : Obligations.OnlyHaltSelfHalts := by
  intro s t h halted
  obtain ⟨⟨-, notHalted⟩, effect⟩ := effect_of_step h
  rcases effect.halted_cases with same | ⟨haltSelf, -⟩
  · simp [same, notHalted] at halted
  · exact haltSelf

/-- Settles O55: a halted core has no step, and no other action clears halted or gives a Terminated core an error. -/
theorem onlyResetLeavesTerminated : Obligations.OnlyResetLeavesTerminated :=
  ⟨fun _ _ _ => hostAct_keeps_terminated, fun _ _ _ => hostAct_keeps_halted⟩

/-- Settles O56: RESET leaves neither, a step only one of the two, and an error is repaired in only where the core is not
Terminated. -/
theorem hostActionsKeepOneStop : Obligations.HostActionsKeepOneStop := by
  intro act s t oneStop h
  by_cases reset : act = .reset
  · subst reset
    cases h
    exact fun both => both.1 rfl
  rcases hostAct_status reset h with stepped | ⟨err, halted⟩ | ⟨halted, noErr | running⟩
  · obtain ⟨running, effect⟩ := effect_of_step stepped
    exact effect.oneStop running
  · rwa [err, halted]
  · exact fun both => both.1 noErr
  · rintro ⟨-, both⟩
    have wasHalted : s.halted = true := halted.symm.trans both
    have noErr : s.err = none := by_contra fun err => oneStop ⟨err, wasHalted⟩
    exact running (State.engine_terminated.mpr ⟨noErr, wasHalted⟩)

end Sys2Proof.Machine

/-! # Memory (20_memory.md): what `srm` stores, and that nothing else writes -/

namespace Sys2Proof.Machine

/-- The order of the two bytes of a 16-bit value, MEM_WORD_ORDER = LE (R44, D2). -/
theorem bytesOfWord_memWordOrder (v : Word) : bytesOfWord memWordOrder v = (lowByte v, highByte v) := rfl

theorem exec_srm (a b : Reg) (c : Nibble) (s : State) : exec (.srm a b c) s = .next (s.exchange a b).advance :=
  Effect.srm.exec_eq

/-- A fetch with pc at the address of an exchange reads the bytes the exchange stored there (R53, R251). -/
theorem State.fetch_setPc_exchange (s : State) (a b : Reg) (wf : s.mem.wf = true) :
    ((s.exchange a b).advance.setPc (s.reg b)).fetch = (lowByte (s.reg a), highByte (s.reg a)) :=
  calc ((s.exchange a b).advance.setPc (s.reg b)).fetch
    _ = (s.exchange a b).memRead2 (s.reg b) := rfl
    _ = bytesOfWord memWordOrder (s.reg a) := s.memRead2_exchange a b wf
    _ = (lowByte (s.reg a), highByte (s.reg a)) := bytesOfWord_memWordOrder _

/-- Only the outcome of `srm` has another memory (R41). -/
theorem Effect.mem_eq {i : Instr} {s t : State} (h : Effect i s t) (notSrm : ∀ a b c, i ≠ .srm a b c) :
    t.mem = s.mem := by
  cases h with
  | srm => exact absurd rfl (notSrm _ _ _)
  | _ => rfl

/-- Settles O34: the next state of `srm` is the exchange, advanced. -/
theorem fetchSeesSrm : Obligations.FetchSeesSrm := by
  intro a b c s t wf h
  cases (exec_srm a b c s).symm.trans h
  exact s.fetch_setPc_exchange a b wf

/-- Settles O39. -/
theorem onlySrmWritesMemory : Obligations.OnlySrmWritesMemory :=
  fun _ _ _ notSrm h => State.readByte_congr ((exec_eq_next_iff.mp h).mem_eq notSrm)

end Sys2Proof.Machine

/-! # Encoding (30_encoding.md)

An instruction, its four fields and its byte pair determine each other; the line it prints as, and its line of numbers,
determine it up to the field R65 ignores and the names that several controls of `srr` share. -/

namespace Sys2Proof

/-! ## Fields as numbers (R61) -/

theorem hiNibble_toNat (v : Byte) : (hiNibble v).toNat = v.toNat / 16 := by
  have h := v.isLt
  simp only [hiNibble, BitVec.extractLsb'_toNat, Nat.shiftRight_eq_div_pow]
  omega

theorem loNibble_toNat (v : Byte) : (loNibble v).toNat = v.toNat % 16 := by
  simp [loNibble]

/-! ## Instructions and fields (R62, R63) -/

theorem opcode_ofOpcode (op : Nibble) : (Mnemonic.ofOpcode op).opcode = op := by
  revert op
  decide

theorem Fields.mnemonic_toInstr (f : Fields) : f.toInstr.mnemonic = Mnemonic.ofOpcode f.op := by
  unfold Fields.toInstr
  cases Mnemonic.ofOpcode f.op <;> rfl

theorem Fields.operandNibbles_toInstr (f : Fields) : f.toInstr.operandNibbles = (f.a, f.b, f.c) := by
  unfold Fields.toInstr
  cases Mnemonic.ofOpcode f.op with
  | xri => simp [Instr.operandNibbles]
  | _ => rfl

@[simp] theorem Fields.toFields_toInstr (f : Fields) : f.toInstr.toFields = f := by
  rw [Instr.toFields, f.operandNibbles_toInstr, f.mnemonic_toInstr, opcode_ofOpcode]

theorem Instr.op_toFields (i : Instr) : i.toFields.op = i.mnemonic.opcode := rfl

/-- The roles of the fields depend on the opcode only through the mnemonic, which `ofOpcode_opcode` gives back. -/
@[simp] theorem Instr.toInstr_toFields (i : Instr) : i.toFields.toInstr = i := by
  unfold Fields.toInstr
  rw [i.op_toFields, Laws.EncodedOpcode.ofOpcode_opcode]
  cases i with
  | xri a imm8 => exact congrArg (Instr.xri a) (joinNibbles_hi_lo imm8)
  | _ => rfl

/-! ## Fields and byte pairs (R60) -/

@[simp] theorem decodeFields_encode (i : Instr) : decodeFields (encode i).1 (encode i).2 = i.toFields := by
  simp [decodeFields, encode]

theorem decode_encode (i : Instr) : decode (encode i).1 (encode i).2 = i := by
  rw [decode, decodeFields_encode, Instr.toInstr_toFields]

theorem encode_decode (byte0 byte1 : Byte) : encode (decode byte0 byte1) = (byte0, byte1) := by
  rw [encode, decode, Fields.toFields_toInstr]
  simp [decodeFields]

theorem existsUnique_decodeFields (f : Fields) : ∃! p : Byte × Byte, decodeFields p.1 p.2 = f := by
  refine ⟨encode f.toInstr, ?_, fun p fields => ?_⟩
  · exact (decodeFields_encode f.toInstr).trans f.toFields_toInstr
  · calc p
      _ = encode (decode p.1 p.2) := (encode_decode p.1 p.2).symm
      _ = encode f.toInstr := by rw [decode, fields]

/-- Settles O2. -/
theorem decodeOfEncode : Obligations.DecodeOfEncode := decode_encode

/-- Settles O1. -/
theorem decoderSplitsTwoBytes : Obligations.DecoderSplitsTwoBytes := by
  refine ⟨fun s => ?_, fun byte0 byte1 => ?_, existsUnique_decodeFields⟩
  · have wrap : BitVec.ofNat 16 (s.pc.toNat + 1) = s.pc + 1 := by simp [BitVec.ofNat_add]
    rw [wrap]
    rfl
  · exact ⟨hiNibble_toNat byte0, loNibble_toNat byte0, hiNibble_toNat byte1, loNibble_toNat byte1⟩

/-- Settles O3. -/
theorem encodeOfDecode : Obligations.EncodeOfDecode := encode_decode

/-- Settles O4: sixteen closed words. -/
theorem specWordsDecode : Obligations.SpecWordsDecode := by
  unfold Obligations.SpecWordsDecode
  decide

end Sys2Proof

/-! ## Execution of what was decoded (R65, R66) -/

namespace Sys2Proof.Machine

theorem step_of_running {s : State} (running : s.Running) : step s = exec s.current s := by
  rw [step, State.engine_running.mpr running]
  rfl

theorem exec_brk_of_not_halt {a b : Nibble} (c : Nibble) (s : State) (goesOn : ¬(a = 0xF ∧ b = 0xF)) :
    exec (.brk a b c) s = .next s.emitDump.advance :=
  (Effect.brkDump goesOn).exec_eq

/-- Settles O7. -/
theorem stepRunsDecodedInstruction : Obligations.StepRunsDecodedInstruction :=
  fun _ running => step_of_running running

/-- Settles O49. -/
theorem ignoredFieldsHaveNoEffect : Obligations.IgnoredFieldsHaveNoEffect := by
  refine ⟨fun a b c c' s => ?_, fun a b c c' s => ?_, fun a b c a' b' c' s goesOn goesOn' => ?_⟩
  · rw [exec_srm, exec_srm]
  · rfl
  · rw [exec_brk_of_not_halt c s goesOn, exec_brk_of_not_halt c' s goesOn']

end Sys2Proof.Machine

/-! ## Assembly (R68, R69) -/

namespace Sys2Proof

theorem Instr.mnemonic_eq_srr_iff {i : Instr} : i.mnemonic = .srr ↔ ∃ a b ctl, i = .srr a b ctl := by
  cases i <;> simp [Instr.mnemonic]

@[simp] theorem isRegister_toNat (n : Nibble) : isRegister n.toNat = true :=
  decide_eq_true n.isLt

@[simp] theorem isDigit_toNat (n : Nibble) : isDigit n.toNat = true :=
  decide_eq_true n.isLt

@[simp] theorem isImm8_toNat (v : Byte) : isImm8 v.toNat = true :=
  decide_eq_true v.isLt

namespace Machine

/-! ### Lines of numbers -/

@[simp] theorem toAsm_xri (a : Reg) (imm8 : Byte) : toAsm (.xri a imm8) = ⟨.xri, [a.val, imm8.toNat]⟩ :=
  congrArg (fun v : Byte => AsmStmt.mk .xri [a.val, v.toNat]) (joinNibbles_hi_lo imm8)

@[simp] theorem toAsm_srr (a b : Reg) (ctl : Nibble) : toAsm (.srr a b ctl) = ⟨.srr, [a.val, b.val, ctl.toNat]⟩ := rfl

@[simp] theorem toAsm_srm (a b : Reg) (c : Nibble) : toAsm (.srm a b c) = ⟨.srm, [a.val, b.val]⟩ := rfl

@[simp] theorem toAsm_brk (a b c : Nibble) : toAsm (.brk a b c) = ⟨.brk, [a.toNat, b.toNat]⟩ := rfl

theorem wellFormed_toAsm (i : Instr) : (toAsm i).wellFormed = true := by
  unfold toAsm AsmStmt.wellFormed
  cases i.mnemonic.format <;> simp

theorem toFields_withoutIgnored (i : Instr) :
    (withoutIgnored i).toFields =
      if i.mnemonic.format = .rrm ∨ i.mnemonic.format = .brk then { i.toFields with c := 0 } else i.toFields := by
  cases i <;> rfl

/-- A line of numbers holds the fields of its instruction, but for the ignored one. -/
theorem asmFields_toAsm (i : Instr) : asmFields (toAsm i) = (withoutIgnored i).toFields := by
  rw [toFields_withoutIgnored]
  unfold asmFields toAsm
  cases i.mnemonic.format <;> simp [Instr.toFields]

theorem assemble_toAsm (i : Instr) : assemble (toAsm i) = some (withoutIgnored i) := by
  rw [assemble, if_pos (wellFormed_toAsm i), asmFields_toAsm, Instr.toInstr_toFields]

theorem withoutIgnored_withoutIgnored (i : Instr) : withoutIgnored (withoutIgnored i) = withoutIgnored i := by
  cases i <;> rfl

/-- The ignored field is not printed (R68). -/
theorem disassemble_withoutIgnored (i : Instr) : disassemble (withoutIgnored i) = disassemble i := by
  cases i <;> rfl

/-- Settles O5. -/
theorem assembleOfToAsm : Obligations.AssembleOfToAsm :=
  fun i => ⟨wellFormed_toAsm i, assemble_toAsm i⟩

/-! ### Splitting a printed line into its operands -/

/-- A text that is read back as one operand from between two separators `, `. -/
structure IsPiece (t : Text) : Prop where
  no_comma : ',' ∉ t
  no_space : dropSpaces t = t

theorem isPiece_regName (r : Reg) : IsPiece (regName r) := ⟨comma_not_mem_regName r, rfl⟩

theorem isPiece_hexByte (v : Byte) : IsPiece (hexByte v) := ⟨comma_not_mem_hexByte v, rfl⟩

theorem isPiece_hexNibble (n : Nibble) : IsPiece (hexNibble n) := ⟨comma_not_mem_hexNibble n, rfl⟩

theorem isPiece_decimalByte (v : Byte) : IsPiece (decimalByte v) := by
  refine ⟨comma_not_mem_decimalByte v, ?_⟩
  revert v
  decide

theorem isPiece_controlName (ctl : Nibble) : IsPiece (controlName ctl) := by
  refine ⟨comma_not_mem_controlName ctl, ?_⟩
  unfold controlName
  split <;> rfl

theorem splitCommas_ne_nil (text : Text) : splitCommas text ≠ [] := by
  cases text with
  | nil => simp [splitCommas]
  | cons ch rest =>
    unfold splitCommas
    split
    · simp
    · split <;> simp

/-- A space after a separator belongs to no piece. -/
theorem map_dropSpaces_splitCommas_space (rest : Text) :
    (splitCommas (' ' :: rest)).map dropSpaces = (splitCommas rest).map dropSpaces := by
  obtain ⟨first, others, cut⟩ := List.exists_cons_of_ne_nil (splitCommas_ne_nil rest)
  simp [splitCommas, cut, dropSpaces]

theorem pieces_cons {p : Text} (rest : Text) (hp : IsPiece p) :
    (splitCommas (p ++ comma ++ rest)).map dropSpaces = p :: (splitCommas rest).map dropSpaces := by
  rw [List.append_assoc, show comma ++ rest = ',' :: ' ' :: rest from rfl, splitCommas_append _ hp.no_comma,
    List.map_cons, hp.no_space, map_dropSpaces_splitCommas_space]

theorem pieces_two {p q : Text} (hp : IsPiece p) (hq : IsPiece q) :
    (splitCommas (p ++ comma ++ q)).map dropSpaces = [p, q] := by
  rw [pieces_cons q hp, splitCommas_of_no_comma hq.no_comma, List.map_singleton, hq.no_space]

theorem pieces_three {p q r : Text} (hp : IsPiece p) (hq : IsPiece q) (hr : IsPiece r) :
    (splitCommas (p ++ comma ++ q ++ comma ++ r)).map dropSpaces = [p, q, r] := by
  rw [List.append_assoc, List.append_assoc, pieces_cons _ hp, ← List.append_assoc, pieces_two hq hr]

/-! ### The lines of numbers a printed line is read as -/

theorem readLine_threeRegs {m : Mnemonic} (a b c : Reg) (form : m.format = .rrr ∨ m.format = .jrr) :
    readLine (mnemonicText m ++ ' ' :: threeRegs a b c) = [⟨m, [a.val, b.val, c.val]⟩] := by
  rw [readLine_mnemonicText, threeRegs, pieces_three (isPiece_regName a) (isPiece_regName b) (isPiece_regName c)]
  rcases form with form | form <;> simp [form, readOperands, choices, oneOf]

/-- Every printed line but one of `srr` is read as one line of numbers. -/
theorem readLine_disassemble {i : Instr} (notSrr : i.mnemonic ≠ .srr) : readLine (disassemble i) = [toAsm i] := by
  cases i with
  | srr a b ctl => exact absurd rfl notSrr
  | xri a imm8 =>
    rw [disassemble, readLine_mnemonicText, operandText,
      pieces_three (isPiece_regName a) (isPiece_hexByte imm8) (isPiece_decimalByte imm8)]
    simp [readOperands, choices, oneOf, Instr.mnemonic, Mnemonic.format]
  | srm a b c =>
    rw [disassemble, readLine_mnemonicText, operandText, pieces_two (isPiece_regName a) (isPiece_regName b)]
    simp [readOperands, choices, oneOf, Instr.mnemonic, Mnemonic.format]
  | brk a b c =>
    rw [disassemble, readLine_mnemonicText, operandText, pieces_two (isPiece_hexNibble a) (isPiece_hexNibble b)]
    simp [readOperands, choices, oneOf, Instr.mnemonic, Mnemonic.format]
  | jeq a b c => exact readLine_threeRegs a b c (.inr rfl)
  | _ a b c => exact readLine_threeRegs a b c (.inl rfl)

theorem readLine_disassemble_srr (a b : Reg) (ctl : Nibble) :
    readLine (disassemble (.srr a b ctl)) =
      (readControl (controlName ctl)).map (fun k => ⟨.srr, [a.val, b.val, k]⟩) := by
  rw [disassemble, readLine_mnemonicText, operandText,
    pieces_three (isPiece_regName a) (isPiece_regName b) (isPiece_controlName ctl)]
  simp [readOperands, choices, oneOf, Instr.mnemonic, Mnemonic.format, List.map_eq_flatMap, List.flatMap_assoc]

/-- The name of a control is read as every control that prints as it. -/
theorem mem_readLine_disassemble_srr {a b : Reg} {ctl : Nibble} {st : AsmStmt} :
    st ∈ readLine (disassemble (.srr a b ctl)) ↔
      ∃ k : Nibble, controlName k = controlName ctl ∧ toAsm (.srr a b k) = st := by
  rw [readLine_disassemble_srr, List.mem_map]
  constructor
  · rintro ⟨k, read, rfl⟩
    obtain ⟨small, name⟩ := (mem_readControl_controlName ctl k).mp read
    have digit : (BitVec.ofNat 4 k).toNat = k := Nat.mod_eq_of_lt small
    exact ⟨BitVec.ofNat 4 k, name, by rw [toAsm_srr, digit]⟩
  · rintro ⟨k, name, rfl⟩
    refine ⟨k.toNat, (mem_readControl_controlName ctl k.toNat).mpr ⟨k.isLt, ?_⟩, rfl⟩
    rwa [BitVec.ofNat_toNat, BitVec.setWidth_eq]

theorem toAsm_mem_readLine_disassemble (i : Instr) : toAsm i ∈ readLine (disassemble i) := by
  by_cases isSrr : i.mnemonic = .srr
  · obtain ⟨a, b, ctl, rfl⟩ := Instr.mnemonic_eq_srr_iff.mp isSrr
    exact mem_readLine_disassemble_srr.mpr ⟨ctl, rfl, rfl⟩
  · rw [readLine_disassemble isSrr]
    exact List.mem_singleton_self _

/-- A printed line is read as the lines of numbers of exactly the instructions that print so. -/
theorem mem_readLine_disassemble {i : Instr} {st : AsmStmt} :
    st ∈ readLine (disassemble i) ↔ ∃ j, disassemble j = disassemble i ∧ toAsm j = st := by
  constructor
  · intro read
    by_cases isSrr : i.mnemonic = .srr
    · obtain ⟨a, b, ctl, rfl⟩ := Instr.mnemonic_eq_srr_iff.mp isSrr
      obtain ⟨k, name, rfl⟩ := mem_readLine_disassemble_srr.mp read
      exact ⟨.srr a b k, by simp only [disassemble, operandText, Instr.mnemonic, name], rfl⟩
    · rw [readLine_disassemble isSrr, List.mem_singleton] at read
      exact ⟨i, rfl, read.symm⟩
  · rintro ⟨j, same, rfl⟩
    exact same ▸ toAsm_mem_readLine_disassemble j

theorem lineAccepted_iff {line : Text} {j : Instr} :
    lineAccepted line j = true ↔ ∃ st ∈ readLine line, assemble st = some j := by
  simp [lineAccepted]

theorem lineAccepted_disassemble {i j : Instr} :
    lineAccepted (disassemble i) j = true ↔ ∃ k, disassemble k = disassemble i ∧ withoutIgnored k = j := by
  simp [lineAccepted_iff, mem_readLine_disassemble, assemble_toAsm]

/-- Settles O6: an instruction is accepted when it is what some instruction with the same line is without its ignored
field, and neither the line nor a second removal sees that field. -/
theorem assemblerReadsDisassembly : Obligations.AssemblerReadsDisassembly := by
  intro i j
  rw [lineAccepted_disassemble]
  constructor
  · rintro ⟨k, same, rfl⟩
    exact ⟨(disassemble_withoutIgnored k).trans same, withoutIgnored_withoutIgnored k⟩
  · rintro ⟨same, noField⟩
    exact ⟨j, same, noField⟩

end Machine

end Sys2Proof

/-! # The ALU family (40_alu.md)

Every instruction of the family has the common form x[a] <- x[a] ^ f(x[b], x[c]) (R100). What is left to say of each is
its function f, as a formula over numbers. -/

namespace Sys2Proof.Machine

/-! ## The function of each instruction -/

theorem addFn_eq (vb vc : Word) : addFn vb vc = BitVec.ofNat 16 (vb.toNat + vc.toNat) := by
  simp [addFn, BitVec.ofNat_add]

theorem subFn_eq (vb vc : Word) : subFn vb vc = BitVec.ofNat 16 (vb.toNat + 65536 - vc.toNat) := by
  apply BitVec.eq_of_toNat_eq
  have h := vc.isLt
  rw [subFn, BitVec.toNat_sub, BitVec.toNat_ofNat]
  omega

theorem mulFn_eq (vb vc : Word) : mulFn vb vc = BitVec.ofNat 16 (vb.toNat * vc.toNat) := by
  simp [mulFn, BitVec.ofNat_mul]

/-- The quotient by zero is 0 on both sides (`divFn_zero`). -/
theorem divFn_eq (vb vc : Word) : divFn vb vc = BitVec.ofNat 16 (vb.toNat / vc.toNat) := by
  rw [divFn, BitVec.udiv_def]

theorem getLsbD_andFn (vb vc : Word) (k : Nat) : (andFn vb vc).getLsbD k = (vb.getLsbD k && vc.getLsbD k) :=
  BitVec.getLsbD_and

theorem getLsbD_oraFn (vb vc : Word) (k : Nat) : (oraFn vb vc).getLsbD k = (vb.getLsbD k || vc.getLsbD k) :=
  BitVec.getLsbD_or

/-! ### cmp: the three cases of R111, unsigned (D11) -/

theorem cmpFn_of_eq {vb vc : Word} (equal : vb.toNat = vc.toNat) : cmpFn cmpSigned vb vc = 0 :=
  if_pos (BitVec.eq_of_toNat_eq equal)

theorem cmpFn_of_gt {vb vc : Word} (greater : vc.toNat < vb.toNat) : cmpFn cmpSigned vb vc = 0x0001 := by
  have differ : vb ≠ vc := fun e => by simp [e] at greater
  simp [cmpFn, threeWay, isGreater, cmpSigned, differ, BitVec.ult, greater]

theorem cmpFn_of_lt {vb vc : Word} (less : vb.toNat < vc.toNat) : cmpFn cmpSigned vb vc = 0xFFFF := by
  have differ : vb ≠ vc := fun e => by simp [e] at less
  simp [cmpFn, threeWay, isGreater, cmpSigned, differ, BitVec.ult, less.le]

/-! ### Shifts by a number of places -/

theorem ushiftRight_eq_div (v : Word) (n : Nat) : v >>> n = BitVec.ofNat 16 (v.toNat / 2 ^ n) := by
  apply BitVec.eq_of_toNat_eq
  have small : v.toNat / 2 ^ n < 2 ^ 16 := (Nat.div_le_self _ _).trans_lt v.isLt
  rw [BitVec.toNat_ushiftRight, Nat.shiftRight_eq_div_pow, BitVec.toNat_ofNat, Nat.mod_eq_of_lt small]

theorem shiftLeft_eq_mul (v : Word) (n : Nat) : v <<< n = BitVec.ofNat 16 (v.toNat * 2 ^ n) := by
  apply BitVec.eq_of_toNat_eq
  rw [BitVec.toNat_shiftLeft, Nat.shiftLeft_eq, BitVec.toNat_ofNat]

/-! ### shr, shl: an amount of 16 or more needs no case of its own -/

theorem shrFn_eq (mode : ShiftMode) (vb vc : Word) : shrFn mode vb vc = vb >>> shiftAmount mode vc := by
  unfold shrFn
  split
  next big => exact (BitVec.ushiftRight_eq_zero big).symm
  next => rfl

theorem shlFn_eq (mode : ShiftMode) (vb vc : Word) : shlFn mode vb vc = vb <<< shiftAmount mode vc := by
  unfold shlFn
  split
  next big => exact (BitVec.shiftLeft_eq_zero big).symm
  next => rfl

/-- Below 16 the two modes agree with each other and with a rotate's amount. -/
theorem shiftAmount_of_lt (mode : ShiftMode) {vc : Word} (small : vc.toNat < 16) :
    shiftAmount mode vc = rotateAmount vc := by
  rw [rotateAmount_eq]
  cases mode with
  | nibble => exact shiftAmount_nibble vc
  | full => exact (Nat.mod_eq_of_lt small).symm

/-! ### ror, rol: a rotate of 32 bits by less than 16 brings nothing back into the low half (R103, R104) -/

theorem rotateAmount_lt (v : Word) : rotateAmount v < 16 := (v.extractLsb' 0 4).isLt

theorem rotateRight_eq_or (x : BitVec 32) {n : Nat} (small : n < 16) :
    x.rotateRight n = x >>> n ||| x <<< ((32 - n) % 32) := by
  rcases Nat.eq_zero_or_pos n with rfl | pos
  · simp [BitVec.rotateRight_def]
  · rw [BitVec.rotateRight_def, Nat.mod_eq_of_lt (by omega : n < 32), Nat.mod_eq_of_lt (by omega : 32 - n < 32)]

theorem rotateLeft_eq_or (x : BitVec 32) {n : Nat} (small : n < 16) :
    x.rotateLeft n = x <<< n ||| x >>> ((32 - n) % 32) := by
  rcases Nat.eq_zero_or_pos n with rfl | pos
  · simp [BitVec.rotateLeft_def, BitVec.ushiftRight_eq_zero]
  · rw [BitVec.rotateLeft_def, Nat.mod_eq_of_lt (by omega : n < 32), Nat.mod_eq_of_lt (by omega : 32 - n < 32)]

/-- `ror` at ROT_WIDTH is the rotate right of the zero-extended value (R103). -/
theorem rorFn_eq_rotateRight (vb vc : Word) :
    rorFn rotWidth vb vc = ((vb.setWidth 32).rotateRight (rotateAmount vc)).setWidth 16 := by
  rw [rotateRight_eq_or _ (rotateAmount_lt vc)]
  rfl

/-- `rol` at ROT_WIDTH is the rotate left of the zero-extended value (R104). -/
theorem rolFn_eq_rotateLeft (vb vc : Word) :
    rolFn rotWidth vb vc = ((vb.setWidth 32).rotateLeft (rotateAmount vc)).setWidth 16 := by
  rw [rotateLeft_eq_or _ (rotateAmount_lt vc)]
  rfl

/-- Bit k of the low half comes from bit n + k, below 32: no bit wraps around into it. -/
theorem setWidth_rotateRight (v : Word) {n : Nat} (small : n < 16) :
    ((v.setWidth 32).rotateRight n).setWidth 16 = v >>> n := by
  apply BitVec.eq_of_getLsbD_eq
  intro k hk
  have noWrap : k < 32 - n := by omega
  have inRange : n + k < 32 := by omega
  simp [BitVec.getLsbD_rotateRight, hk, noWrap, inRange, Nat.mod_eq_of_lt (by omega : n < 32)]

/-- The bits that wrap around come from above bit 16, where the zero-extended value has none. -/
theorem setWidth_rotateLeft (v : Word) {n : Nat} (small : n < 16) :
    ((v.setWidth 32).rotateLeft n).setWidth 16 = v <<< n := by
  apply BitVec.eq_of_getLsbD_eq
  intro k hk
  have aboveTop : v.getLsbD (32 - n + k) = false := BitVec.getLsbD_of_ge _ _ (by omega)
  have inRange : k < 32 ∧ k - n < 32 := by omega
  simp only [BitVec.getLsbD_setWidth, BitVec.getLsbD_rotateLeft, BitVec.getLsbD_shiftLeft,
    Nat.mod_eq_of_lt (by omega : n < 32)]
  by_cases wraps : k < n
  · simp [wraps, aboveTop]
  · simp [wraps, hk, inRange]

theorem rorFn_eq (vb vc : Word) : rorFn rotWidth vb vc = vb >>> rotateAmount vc :=
  (rorFn_eq_rotateRight vb vc).trans (setWidth_rotateRight vb (rotateAmount_lt vc))

theorem rolFn_eq (vb vc : Word) : rolFn rotWidth vb vc = vb <<< rotateAmount vc :=
  (rolFn_eq_rotateLeft vb vc).trans (setWidth_rotateLeft vb (rotateAmount_lt vc))

theorem rorFn_eq_shrFn (mode : ShiftMode) (vb : Word) {vc : Word} (small : vc.toNat < 16) :
    rorFn rotWidth vb vc = shrFn mode vb vc := by
  rw [rorFn_eq, shrFn_eq, shiftAmount_of_lt mode small]

theorem rolFn_eq_shlFn (mode : ShiftMode) (vb : Word) {vc : Word} (small : vc.toNat < 16) :
    rolFn rotWidth vb vc = shlFn mode vb vc := by
  rw [rolFn_eq, shlFn_eq, shiftAmount_of_lt mode small]

/-! ## An instruction of the common form -/

/-- What an instruction of the common form does, the value of its function being v. -/
theorem exec_alu_spec {i : Instr} {f : Word → Word → Word} {a b c : Reg} (form : aluForm? i = some (f, a, b, c))
    (s : State) {v : Word} (value : f (s.reg b) (s.reg c) = v) :
    ∃ t, exec i s = .next t ∧ t.reg a = s.reg a ^^^ v ∧ t.pc = nextPc s ∧ WritesOnly [a] s t := by
  subst value
  exact ⟨_, exec_alu form s, s.aluWrite_spec f a b c⟩

/-- Two instructions of the common form on the same registers, whose functions agree on the values read, do the same. -/
theorem exec_alu_congr {i j : Instr} {f g : Word → Word → Word} {a b c : Reg} {s : State}
    (formI : aluForm? i = some (f, a, b, c)) (formJ : aluForm? j = some (g, a, b, c))
    (agree : f (s.reg b) (s.reg c) = g (s.reg b) (s.reg c)) : exec i s = exec j s := by
  rw [exec_alu formI, exec_alu formJ, State.aluWrite, State.aluWrite, agree]

theorem nextPc_forward_zero {s : State} (forward : s.dir = .forward) (zero : s.pc = 0) : nextPc s = 2 := by
  rw [nextPc_eq, forward, zero]
  rfl

/-! ## Running an instruction twice (R112, R141) -/

theorem State.reg_xorReg_twice (s : State) (a r : Reg) (v : Word) :
    ((s.xorReg a v).advance.xorReg a v).advance.reg r = s.reg r := by
  by_cases h : r = a
  · subst h
    simp
  · simp [State.reg_xorReg_ne _ _ h]

/-- `i` XORs a value of the state into x[a] and advances; the value depends on the source registers only. -/
structure Accumulates (i : Instr) (a : Reg) (sources : List Reg) (value : State → Word) : Prop where
  run : ∀ s, exec i s = .next (s.xorReg a (value s)).advance
  onlySources : ∀ s t : State, (∀ r ∈ sources, t.reg r = s.reg r) → value t = value s

theorem accumulates_of_aluForm {i : Instr} {f : Word → Word → Word} {a b c : Reg}
    (form : aluForm? i = some (f, a, b, c)) : Accumulates i a [b, c] (fun s => f (s.reg b) (s.reg c)) where
  run := exec_alu form
  onlySources := fun s t same => by simp [same]

theorem accumulates_xri (a : Reg) (imm8 : Byte) : Accumulates (.xri a imm8) a [] (fun _ => immWord imm8) where
  run := fun _ => rfl
  onlySources := fun _ _ _ => rfl

/-- The instructions of the XOR-involution property are those of the common form, and `xri`. -/
theorem exists_accumulates {i : Instr} {a : Reg} {sources : List Reg} (h : accumulation i = some (a, sources)) :
    ∃ value, Accumulates i a sources value := by
  cases i with
  | xri a imm8 => cases h; exact ⟨_, accumulates_xri a imm8⟩
  | jeq | srr | srm | brk => cases h
  | _ => cases h; exact ⟨_, accumulates_of_aluForm rfl⟩

/-! ## The statements -/

/-- Settles O11. -/
theorem addResult : Obligations.AddResult := by
  intro a b c s
  obtain ⟨t, run, result, pc, frame⟩ := exec_alu_spec (i := .add a b c) rfl s (addFn_eq _ _)
  exact ⟨decode_encode (.add a b c), t, run, result, frame,
    fun forward zero => pc.trans (nextPc_forward_zero forward zero)⟩

/-- Settles O12. -/
theorem subResult : Obligations.SubResult :=
  fun _ _ _ s => exec_alu_spec rfl s (subFn_eq _ _)

/-- Settles O13: the rotate is the value of the function, and the shift is the rotate. -/
theorem rorResult : Obligations.RorResult := by
  intro a b c s
  rw [← rotateAmount_eq]
  obtain ⟨t, run, result, pc, frame⟩ := exec_alu_spec (i := .ror a b c) rfl s (rorFn_eq_rotateRight _ _)
  refine ⟨t, run, result, ?_, pc, frame⟩
  rw [result, setWidth_rotateRight _ (rotateAmount_lt _), ushiftRight_eq_div]

/-- Settles O14: the rotate is the value of the function, and the shift is the rotate. -/
theorem rolResult : Obligations.RolResult := by
  intro a b c s
  rw [← rotateAmount_eq]
  obtain ⟨t, run, result, pc, frame⟩ := exec_alu_spec (i := .rol a b c) rfl s (rolFn_eq_rotateLeft _ _)
  refine ⟨t, run, result, ?_, pc, frame⟩
  rw [result, setWidth_rotateLeft _ (rotateAmount_lt _), shiftLeft_eq_mul]

/-- Settles O15, for each value of SHIFT_MODE. -/
theorem shrResult : Obligations.ShrResult := by
  intro a b c s
  apply exec_alu_spec (i := .shr a b c) rfl s
  rw [shrFn_eq, ushiftRight_eq_div, shiftMode]
  cases Config.shiftMode with
  | nibble => rw [shiftAmount_nibble]
  | full => rw [shiftAmount_full]

/-- Settles O16, for each value of SHIFT_MODE. -/
theorem shlResult : Obligations.ShlResult := by
  intro a b c s
  apply exec_alu_spec (i := .shl a b c) rfl s
  rw [shlFn_eq, shiftLeft_eq_mul, shiftMode]
  cases Config.shiftMode with
  | nibble => rw [shiftAmount_nibble]
  | full => rw [shiftAmount_full]

/-- Settles O17: below 16 the functions agree. -/
theorem rotatesAreShiftsBelowSixteen : Obligations.RotatesAreShiftsBelowSixteen :=
  fun _ _ _ _ small =>
    ⟨exec_alu_congr rfl rfl (rorFn_eq_shrFn _ _ small), exec_alu_congr rfl rfl (rolFn_eq_shlFn _ _ small)⟩

/-- Settles O18. -/
theorem logicResult : Obligations.LogicResult := by
  intro a b c s
  constructor
  · obtain ⟨t, run, result, pc, frame⟩ := exec_alu_spec (i := .and a b c) rfl s rfl
    exact ⟨t, run, fun k _ => by rw [result, BitVec.getLsbD_xor, getLsbD_andFn], pc, frame⟩
  · obtain ⟨t, run, result, pc, frame⟩ := exec_alu_spec (i := .ora a b c) rfl s rfl
    exact ⟨t, run, fun k _ => by rw [result, BitVec.getLsbD_xor, getLsbD_oraFn], pc, frame⟩

/-- Settles O19. -/
theorem mulResult : Obligations.MulResult :=
  fun _ _ _ s => exec_alu_spec rfl s (mulFn_eq _ _)

/-- Settles O20: XORing in the quotient by zero, 0, changes nothing. -/
theorem divResult : Obligations.DivResult := by
  intro a b c s
  obtain ⟨t, run, result, pc, frame⟩ := exec_alu_spec (i := .div a b c) rfl s (divFn_eq _ _)
  refine ⟨t, run, fun zero => ?_, fun _ => result, pc, frame⟩
  simpa [zero] using result

/-- Settles O21. -/
theorem cmpResult : Obligations.CmpResult := by
  intro a b c s
  obtain ⟨t, run, result, pc, frame⟩ := exec_alu_spec (i := .cmp a b c) rfl s rfl
  refine ⟨t, run, fun equal => ?_, fun greater => ?_, fun less => ?_, pc, frame⟩
  · rw [result, cmpFn_of_eq equal]
    exact BitVec.xor_zero
  · rw [result, cmpFn_of_gt greater]
  · rw [result, cmpFn_of_lt less]

/-- Settles O46: the first run leaves the sources as they were, so the second XORs in the same value. -/
theorem xorInvolution : Obligations.XorInvolution := by
  intro i s t u a sources h fresh first second r
  obtain ⟨value, run, onlySources⟩ := exists_accumulates h
  cases (run s).symm.trans first
  cases (run _).symm.trans second
  have sameSources : ∀ q ∈ sources, (s.xorReg a (value s)).advance.reg q = s.reg q :=
    fun q hq => State.reg_xorReg_ne s _ fun e => fresh (e ▸ hq)
  rw [onlySources s _ sameSources]
  exact s.reg_xorReg_twice a r (value s)

end Sys2Proof.Machine

/-! # Control transfer: `jeq` (41_jump.md)

`State.jump` is the next state of a taken `jeq`, and `Jumps s a b c` says that a step takes one; the statements about
steps are facts about these two. -/

namespace Sys2Proof.Machine

/-! ## The checks of `jeq` -/

theorem isOdd_eq_true_iff (t : Word) : isOdd t = true ↔ t.toNat % 2 = 1 := by
  rw [isOdd_eq, decide_eq_true_iff]

theorem isOdd_eq_false_iff (t : Word) : isOdd t = false ↔ t.toNat % 2 = 0 := by
  rw [← Bool.not_eq_true, isOdd_eq_true_iff]
  omega

/-- The `BA BC` of R130 is what the encoder gives. -/
theorem encode_jeq (a b c : Reg) : encode (.jeq a b c) = jeqBytes a b c := rfl

theorem State.memRead2_eq_iff (s : State) (t : Word) (p : Byte × Byte) :
    s.memRead2 t = p ↔ s.readByte t = p.1 ∧ s.readByte (t + 1) = p.2 :=
  Prod.ext_iff

/-- "The 2 bytes of the jump instruction currently executing" are the bytes fetched (log 13). -/
theorem State.encode_current (s : State) : encode s.current = s.fetch := encode_decode _ _

/-! ## The jump -/

/-- x[a] and pc exchanged: the jump to x[a] and its link, the old pc (R130). -/
def State.jump (s : State) (a : Reg) : State := (s.setReg a s.pc).setPc (s.reg a)

@[simp] theorem State.jump_pc (s : State) (a : Reg) : (s.jump a).pc = s.reg a := rfl

@[simp] theorem State.reg_jump_same (s : State) (a : Reg) : (s.jump a).reg a = s.pc :=
  State.reg_setReg_same s a s.pc

theorem State.reg_jump_ne (s : State) {a q : Reg} (h : q ≠ a) : (s.jump a).reg q = s.reg q :=
  State.reg_setReg_ne s s.pc h

theorem State.writesOnly_jump (s : State) (a : Reg) : WritesOnly [a] s (s.jump a) :=
  ⟨fun _ hr => s.reg_jump_ne (List.mem_singleton.not.mp hr), ⟨rfl, rfl, rfl, rfl⟩, fun _ => rfl⟩

theorem State.fetch_jump (s : State) (a : Reg) : (s.jump a).fetch = s.memRead2 (s.reg a) := rfl

/-- `dir` is not read by a jump. -/
theorem setDir_jump (d : Direction) (s : State) (a : Reg) : setDir d (s.jump a) = (setDir d s).jump a := rfl

/-- An exchange done twice: a jump is its own inverse (R132). -/
theorem State.jump_jump (s : State) (a : Reg) : (s.jump a).jump a = s := by
  refine State.eq_of_fields (fun r => ?_) ?_ rfl rfl rfl rfl rfl
  · by_cases h : r = a
    · rw [h, State.reg_jump_same, State.jump_pc]
    · rw [State.reg_jump_ne _ h, State.reg_jump_ne _ h]
  · rw [State.jump_pc, State.reg_jump_same]

/-- The exchange of two equal values does nothing. -/
theorem State.jump_of_reg_eq_pc {s : State} {a : Reg} (h : s.reg a = s.pc) : s.jump a = s := by
  rw [State.jump, ← h, State.setReg_reg_self, h]
  rfl

theorem exec_jeq_taken {a b c : Reg} {s : State} (equal : s.reg b = s.reg c) (even : (s.reg a).toNat % 2 = 0)
    (twin : s.memRead2 (s.reg a) = jeqBytes a b c) : exec (.jeq a b c) s = .next (s.jump a) :=
  (Effect.jeqTaken equal ((isOdd_eq_false_iff _).mpr even) twin).exec_eq

/-! ## Steps that jump -/

/-- A core whose next step is a taken `jeq` (R130). -/
structure Jumps (s : State) (a b c : Reg) : Prop where
  running : s.Running
  current : s.current = .jeq a b c
  equal : s.reg b = s.reg c
  even : (s.reg a).toNat % 2 = 0
  twin : s.memRead2 (s.reg a) = s.fetch

namespace Jumps

variable {s : State} {a b c : Reg}

theorem step_eq (h : Jumps s a b c) : step s = .next (s.jump a) := by
  have twin : s.memRead2 (s.reg a) = jeqBytes a b c := by
    rw [h.twin, ← s.encode_current, h.current, encode_jeq]
  rw [step_of_running h.running, h.current, exec_jeq_taken h.equal h.even twin]

/-- The target holds the bytes of the jump itself (R131). -/
theorem fetch_jump (h : Jumps s a b c) : (s.jump a).fetch = s.fetch := h.twin

/-- The target is itself a `jeq rA, rB, rC` (R131). -/
theorem current_jump (h : Jumps s a b c) : (s.jump a).current = .jeq a b c := by
  rw [State.current, h.fetch_jump]
  exact h.current

theorem setDir (h : Jumps s a b c) (d : Direction) : Jumps (setDir d s) a b c :=
  ⟨h.running, h.current, h.equal, h.even, h.twin⟩

/-- When a is not b or c, the link leaves the condition true, and the target's twin is the jump at the old pc (R132). -/
theorem jump (h : Jumps s a b c) (hab : a ≠ b) (hac : a ≠ c) (even : s.pc.toNat % 2 = 0) : Jumps (s.jump a) a b c where
  running := h.running
  current := h.current_jump
  equal := by rw [s.reg_jump_ne hab.symm, s.reg_jump_ne hac.symm, h.equal]
  even := by rwa [s.reg_jump_same]
  twin := by rw [s.reg_jump_same, h.fetch_jump]; rfl

/-- The step after a jump undoes it (R132). -/
theorem step_jump (h : Jumps s a b c) (hab : a ≠ b) (hac : a ≠ c) (even : s.pc.toNat % 2 = 0) :
    step (s.jump a) = .next s := by
  rw [(h.jump hab hac even).step_eq, s.jump_jump]

end Jumps

/-- Of the outcomes of a `jeq` whose condition holds, only the jump raises no error (R200). -/
theorem Effect.jeq_jumps {a b c : Reg} {s t : State} (h : Effect (.jeq a b c) s t) (equal : s.reg b = s.reg c)
    (noErr : t.err = none) :
    (s.reg a).toNat % 2 = 0 ∧ s.memRead2 (s.reg a) = encode (.jeq a b c) ∧ t = s.jump a := by
  cases h with
  | alu form => cases form
  | jeqNotTaken differ => exact absurd equal differ
  | jeqMisaligned | jeqMismatched => cases noErr
  | jeqTaken _ even twin => exact ⟨even_of_not_isOdd even, twin, rfl⟩

/-- A step of a `jeq` whose condition holds jumps, unless it raises an error. -/
theorem jumps_of_step {s t : State} {a b c : Reg} (h : step s = .next t) (current : s.current = .jeq a b c)
    (equal : s.reg b = s.reg c) (noErr : t.err = none) : Jumps s a b c ∧ t = s.jump a := by
  obtain ⟨running, effect⟩ := effect_of_step h
  rw [current] at effect
  obtain ⟨even, twin, next⟩ := effect.jeq_jumps equal noErr
  rw [← current, s.encode_current] at twin
  exact ⟨⟨running, current, equal, even, twin⟩, next⟩

/-- A step of a `jeq` whose condition is false only advances. -/
theorem step_jeq_not_taken {s : State} {a b c : Reg} (running : s.Running) (current : s.current = .jeq a b c)
    (differ : s.reg b ≠ s.reg c) : step s = .next s.advance := by
  rw [step_of_running running, current, exec_jeq_not_taken a differ]

/-! ## The statements -/

/-- Settles O22. -/
theorem jeqNotTaken : Obligations.JeqNotTaken :=
  fun a _ _ s differ => ⟨s.advance, exec_jeq_not_taken a differ, s.advance_spec⟩

/-- Settles O23. -/
theorem jeqMisaligned : Obligations.JeqMisaligned :=
  fun _ _ _ _ equal odd => (Effect.jeqMisaligned equal ((isOdd_eq_true_iff _).mpr odd)).exec_eq

/-- Settles O24. -/
theorem jeqMismatched : Obligations.JeqMismatched := by
  intro a b c s equal even differ
  have other : s.memRead2 (s.reg a) ≠ encode (.jeq a b c) := by
    rwa [encode_jeq, ne_eq, State.memRead2_eq_iff, not_and_or]
  exact (Effect.jeqMismatched equal ((isOdd_eq_false_iff _).mpr even) other).exec_eq

/-- Settles O25. -/
theorem jeqTaken : Obligations.JeqTaken :=
  fun a _ _ s equal even byte0 byte1 =>
    ⟨s.jump a, exec_jeq_taken equal even ((s.memRead2_eq_iff _ _).mpr ⟨byte0, byte1⟩), s.reg_jump_same a, rfl,
      s.writesOnly_jump a⟩

/-- Settles O26: of the three things an outcome does to pc, one is an advance, one stops the core, and one is a jump onto
the twin. -/
theorem jumpReachesTwin : Obligations.JumpReachesTwin := by
  have lands : ∀ (s t : State) (a b c : Reg), step s = .next t → s.current = .jeq a b c → s.reg b = s.reg c →
      t.err = none → t.pc = s.reg a ∧ t.fetch = s.fetch ∧ t.current = .jeq a b c := by
    intro s t a b c h current equal noErr
    obtain ⟨jumps, rfl⟩ := jumps_of_step h current equal noErr
    exact ⟨rfl, jumps.fetch_jump, jumps.current_jump⟩
  refine ⟨lands, fun s t h noErr notHalted => ?_⟩
  obtain ⟨-, effect⟩ := effect_of_step h
  rcases effect.pc_cases with advanced | ⟨-, stopped⟩ | ⟨a, b, c, current, equal, -⟩
  · exact .inl advanced
  · simp [noErr, notHalted] at stopped
  · obtain ⟨-, bytes, twin⟩ := lands s t a b c h current equal noErr
    exact .inr ⟨bytes, a, b, c, current, twin⟩

/-- Settles O27: the state before, with its direction set, jumps too, and the step after its jump undoes it. -/
theorem jeqReversible : Obligations.JeqReversible := by
  intro s a b c running current hab hac equal evenPc even twin
  have jumps : Jumps s a b c := ⟨running, current, equal, even, twin⟩
  refine ⟨s.jump a, jumps.step_eq, rfl, s.reg_jump_same a, fun d => ?_⟩
  rw [setDir_jump]
  exact (jumps.setDir d).step_jump hab hac evenPc

/-- Settles O28: the link, in x[a], makes the twin's condition false. -/
theorem jeqFormFallsThrough : Obligations.JeqFormFallsThrough := by
  intro s a c running current hac equal even twin link
  rw [← equal] at even twin
  have jumps : Jumps s a a c := ⟨running, current, equal, even, twin⟩
  have differ : (s.jump a).reg a ≠ (s.jump a).reg c := by
    rwa [s.reg_jump_same, s.reg_jump_ne hac.symm]
  exact ⟨s.jump a, (s.jump a).advance, jumps.step_eq, equal, s.reg_jump_same a,
    step_jeq_not_taken jumps.running jumps.current_jump differ, (s.jump a).advance_spec⟩

/-- Settles O29: the target is its own twin, and the link is the value x[a] already holds. -/
theorem jeqToItself : Obligations.JeqToItself := by
  intro s a b c running current equal self evenPc
  have jumps : Jumps s a b c := ⟨running, current, equal, self ▸ evenPc, by rw [self]; rfl⟩
  rw [jumps.step_eq, State.jump_of_reg_eq_pc self]

end Sys2Proof.Machine

/-! # Register-immediate and byte-permute instructions: `xri`, `srr` (42_xri_srr.md)

`xri` is decided byte by byte: the zero-extended immediate has no high byte. `srr` is the byte permutation of
`gatherBytes`, `permuteBytes`, `firstWord` and `lastWord`; its lemmas are first about the four bytes, then about the
registers that hold them. -/

namespace Sys2Proof.Machine

/-! ## The immediate of `xri` (R64, R140) -/

theorem immWord_eq (imm8 : Byte) : immWord imm8 = BitVec.ofNat 16 imm8.toNat :=
  (BitVec.ofNat_toNat 16 imm8).symm

/-- The immediate is zero-extended (D12). -/
@[simp] theorem highByte_immWord (imm8 : Byte) : highByte (immWord imm8) = 0 := by
  apply BitVec.eq_of_getLsbD_eq
  intro k _
  simp [highByte, immWord]

@[simp] theorem highByte_xor (v w : Word) : highByte (v ^^^ w) = highByte v ^^^ highByte w :=
  BitVec.extractLsb'_xor

theorem highByte_xor_immWord (v : Word) (imm8 : Byte) : highByte (v ^^^ immWord imm8) = highByte v := by
  rw [highByte_xor, highByte_immWord]
  exact BitVec.xor_zero

/-! ## Two words and their four bytes (R142, D3) -/

@[simp] theorem firstWord_gatherBytes (va vb : Word) : firstWord (gatherBytes va vb) = va :=
  joinBytes_high_low va

@[simp] theorem lastWord_gatherBytes (va vb : Word) : lastWord (gatherBytes va vb) = vb :=
  joinBytes_high_low vb

/-- Bytes 2 and 3 of a pair are those of its last word, whatever the first word is. -/
theorem gatherBytes_getElem_last (va : Word) (v : Vector Byte 4) {i : Fin 4} (last : 2 ≤ i.val) :
    (gatherBytes va (lastWord v))[i.val] = v[i.val] := by
  obtain rfl | rfl : i = 2 ∨ i = 3 := by omega
  · exact lowByte_joinBytes v[3] v[2]
  · exact highByte_joinBytes v[3] v[2]

/-- Every entry of the table is its own inverse, so permuting twice restores the bytes (R30). -/
@[simp] theorem permuteBytes_permuteBytes (p : ByteInvolution) (v : Vector Byte 4) :
    permuteBytes p (permuteBytes p v) = v := by
  apply Vector.ext
  intro i hi
  calc (permuteBytes p (permuteBytes p v))[i]
      _ = (permuteBytes p v)[(involutionAt p ⟨i, hi⟩).val] := permuteBytes_getElem p _ ⟨i, hi⟩
      _ = v[(involutionAt p (involutionAt p ⟨i, hi⟩)).val] := permuteBytes_getElem p v _
      _ = v[i] := by simp only [involutionAt_involutionAt]

/-! ## The registers permuted -/

/-- Different registers hold all four permuted bytes. -/
theorem State.gatherBytes_permuteRegs (s : State) (p : ByteInvolution) {a b : Reg} (hab : a ≠ b) :
    gatherBytes ((s.permuteRegs p a b).reg a) ((s.permuteRegs p a b).reg b) =
      permuteBytes p (gatherBytes (s.reg a) (s.reg b)) := by
  rw [State.reg_permuteRegs_first s p hab, State.reg_permuteRegs_last, gatherBytes_words]

/-- Byte i of the pair is the old byte p(i); when a = b this is so of the word written last (D5). -/
theorem State.pairByte_permuteRegs (s : State) (p : ByteInvolution) {a b : Reg} {i : Fin 4}
    (kept : 2 ≤ i.val ∨ a ≠ b) :
    pairByte ((s.permuteRegs p a b).reg a) ((s.permuteRegs p a b).reg b) i =
      pairByte (s.reg a) (s.reg b) (involutionAt p i) := by
  rw [pairByte_eq, pairByte_eq, ← permuteBytes_getElem]
  rcases kept with last | hab
  · rw [State.reg_permuteRegs_last, gatherBytes_getElem_last _ _ last]
  · rw [s.gatherBytes_permuteRegs p hab]

/-- The permutation of two different registers is an involution of the state (R143). -/
theorem State.permuteRegs_permuteRegs (s : State) (p : ByteInvolution) {a b : Reg} (hab : a ≠ b) :
    (s.permuteRegs p a b).permuteRegs p a b = s := by
  refine State.eq_of_fields (fun r => ?_) rfl rfl rfl rfl rfl rfl
  by_cases hb : r = b
  · rw [hb, State.reg_permuteRegs_last, s.gatherBytes_permuteRegs p hab, permuteBytes_permuteBytes, lastWord_gatherBytes]
  by_cases ha : r = a
  · rw [ha, State.reg_permuteRegs_first _ p hab, s.gatherBytes_permuteRegs p hab, permuteBytes_permuteBytes,
      firstWord_gatherBytes]
  · rw [State.reg_permuteRegs_ne _ p ha hb, State.reg_permuteRegs_ne s p ha hb]

/-- `pc` is not read by the permutation. -/
theorem State.permuteRegs_advance (s : State) (p : ByteInvolution) (a b : Reg) :
    s.advance.permuteRegs p a b = (s.permuteRegs p a b).advance := rfl

/-- What a legal `srr` does (R142). -/
theorem exec_srr_legal {ctl : Nibble} (a b : Reg) (s : State) (legal : ctl.toNat < 8) :
    exec (.srr a b ctl) s = .next (s.permuteRegs (srrEntry ⟨ctl.toNat, legal⟩) a b).advance :=
  (Effect.srr legal).exec_eq

/-! ## The statements -/

/-- Settles O30. -/
theorem xriResult : Obligations.XriResult := by
  intro a imm8 s
  have xored : (s.xorReg a (immWord imm8)).advance.reg a = s.reg a ^^^ immWord imm8 := s.reg_xorReg_same a _
  refine ⟨_, Effect.xri.exec_eq, ?_, ?_, (nextPc_eq s).symm, (Effect.xri (imm8 := imm8)).sameRegsBut,
    ⟨rfl, rfl, rfl, rfl⟩, fun _ => rfl⟩
  · rw [xored, immWord_eq]
  · rw [xored, highByte_xor_immWord]

/-- Settles O31. -/
theorem srrInvalidControl : Obligations.SrrInvalidControl :=
  fun a b _ s invalid => exec_srr_invalid a b s invalid

/-- Settles O32. -/
theorem srrResult : Obligations.SrrResult :=
  fun a b ctl s legal =>
    ⟨_, exec_srr_legal a b s legal, fun _ kept => s.pairByte_permuteRegs (srrEntry ⟨ctl.toNat, legal⟩) kept,
      (nextPc_eq s).symm, (Effect.srr legal).sameRegsBut, ⟨rfl, rfl, rfl, rfl⟩, fun _ => rfl⟩

/-- Settles O47: the second permutation undoes the first, and the advance between them is not seen by it. -/
theorem srrInvolution : Obligations.SrrInvolution := by
  intro a b ctl s t u hab legal first second r
  cases (exec_srr_legal a b s legal).symm.trans first
  cases (exec_srr_legal a b _ legal).symm.trans second
  rw [State.permuteRegs_advance, s.permuteRegs_permuteRegs _ hab]
  rfl

end Sys2Proof.Machine

/-! # Memory exchange: `srm` (43_memory_swap.md)

`State.exchange` first by the numbers of the word read and of the bytes stored, then as an involution: the second
exchange reads back the word that the first stored. -/

namespace Sys2Proof.Machine

/-! ## The word and the two bytes exchanged (R44, D2) -/

/-- The address of the exchange is the register's value, with nothing added (R150). -/
@[simp] theorem State.srmAddress_eq_reg (s : State) (b : Reg) : s.srmAddress b = s.reg b := rfl

theorem State.mem16Read_toNat (s : State) (addr : Word) :
    (s.mem16Read addr).toNat = (s.readByte addr).toNat + 256 * (s.readByte (addr + 1)).toNat :=
  calc (s.mem16Read addr).toNat
    _ = (s.readByte (addr + 1)).toNat * 256 + (s.readByte addr).toNat := joinBytes_toNat _ _
    _ = (s.readByte addr).toNat + 256 * (s.readByte (addr + 1)).toNat := by omega

/-- The bytes of the word read at an address are the bytes there. -/
theorem State.bytesOfWord_mem16Read (s : State) (addr : Word) :
    bytesOfWord memWordOrder (s.mem16Read addr) = s.memRead2 addr :=
  bytesOfWord_wordOfBytes memWordOrder _

/-- The two bytes after an exchange are those of the old x[a], low byte first. -/
theorem State.readByte_exchange_same (s : State) (a b : Reg) (wf : s.mem.wf = true) :
    (s.exchange a b).readByte (s.reg b) = lowByte (s.reg a) ∧
      (s.exchange a b).readByte (s.reg b + 1) = highByte (s.reg a) := by
  have stored := s.memRead2_exchange a b wf
  rw [bytesOfWord_memWordOrder] at stored
  exact (State.memRead2_eq_iff _ _ _).mp stored

/-! ## The exchange done twice (R151) -/

/-- `pc` is not read by the exchange. -/
theorem State.exchange_advance (s : State) (a b : Reg) : s.advance.exchange a b = (s.exchange a b).advance := rfl

/-- States that agree on the two bytes at an address and on all others have the same memory. -/
theorem State.sameMemory_of_memRead2_eq {s t : State} {addr : Word} (pair : t.memRead2 addr = s.memRead2 addr)
    (others : ∀ x, x ≠ addr → x ≠ addr + 1 → t.readByte x = s.readByte x) : SameMemory s t := by
  obtain ⟨byte0, byte1⟩ := (t.memRead2_eq_iff addr _).mp pair
  intro x
  by_cases first : x = addr
  · rw [first]; exact byte0
  by_cases second : x = addr + 1
  · rw [second]; exact byte1
  · exact others x first second

/-- When a is not b, the exchange keeps its own address. -/
theorem State.reg_exchange_address (s : State) {a b : Reg} (hab : a ≠ b) : (s.exchange a b).reg b = s.reg b :=
  s.reg_exchange_ne b hab.symm

section

variable {s : State} {a b : Reg}

/-- The second exchange reads back the old x[a]. -/
theorem State.reg_exchange_exchange (wf : s.mem.wf = true) (hab : a ≠ b) (r : Reg) :
    ((s.exchange a b).exchange a b).reg r = s.reg r := by
  by_cases dest : r = a
  · rw [dest, State.reg_exchange_same, s.reg_exchange_address hab]
    exact State.mem16Read_mem16Write_same (s.reg b) (s.reg a) wf
  · rw [State.reg_exchange_ne _ b dest, State.reg_exchange_ne _ b dest]

/-- The second exchange stores the word that the first one read. -/
theorem State.memRead2_exchange_exchange (wf : s.mem.wf = true) (hab : a ≠ b) :
    ((s.exchange a b).exchange a b).memRead2 (s.reg b) = s.memRead2 (s.reg b) := by
  have stored := (s.exchange a b).memRead2_exchange a b (State.wf_exchange a b wf)
  rwa [s.reg_exchange_address hab, s.reg_exchange_same, s.bytesOfWord_mem16Read] at stored

theorem State.sameMemory_exchange_exchange (wf : s.mem.wf = true) (hab : a ≠ b) :
    SameMemory s ((s.exchange a b).exchange a b) := by
  have address := s.reg_exchange_address hab
  refine State.sameMemory_of_memRead2_eq (State.memRead2_exchange_exchange wf hab) fun x first second => ?_
  calc ((s.exchange a b).exchange a b).readByte x
    _ = (s.exchange a b).readByte x :=
      State.readByte_exchange_ne _ a b (by rwa [address]) (by rwa [address])
    _ = s.readByte x := s.readByte_exchange_ne a b first second

/-- Over canonical memory, the exchange with a not b is an involution of the state (R151). -/
theorem State.exchange_exchange (wf : s.mem.wf = true) (hab : a ≠ b) : (s.exchange a b).exchange a b = s :=
  State.eq_of_fields (State.reg_exchange_exchange wf hab) rfl rfl rfl rfl
    (State.mem_eq_of_readByte_eq wf (State.wf_exchange a b (State.wf_exchange a b wf))
      (State.sameMemory_exchange_exchange wf hab)) rfl

end

/-! ## The statements -/

/-- Settles O33: the next state of `srm` is the exchange, advanced. -/
theorem srmResult : Obligations.SrmResult := by
  intro a b c s wf
  obtain ⟨low, high⟩ := s.readByte_exchange_same a b wf
  refine ⟨_, exec_srm a b c s, ?_, ?_, ?_, rfl, fun x => s.readByte_exchange_ne a b, (nextPc_eq s).symm,
    (Effect.srm (c := c)).sameRegsBut, ⟨rfl, rfl, rfl, rfl⟩⟩
  · rw [State.reg_advance, State.reg_exchange_same, State.mem16Read_toNat, State.srmAddress_eq_reg]
  · rw [State.readByte_advance, State.srmAddress_eq_reg, low, lowByte_toNat]
  · rw [State.readByte_advance, State.srmAddress_eq_reg, high, highByte_toNat]

/-- Settles O48: the second exchange undoes the first, and the advance between them is not seen by it. -/
theorem srmTwiceRestores : Obligations.SrmTwiceRestores := by
  intro a b c s t u wf hab first second
  cases (exec_srm a b c s).symm.trans first
  cases (exec_srm a b c _).symm.trans second
  rw [State.exchange_advance, State.exchange_exchange wf hab]
  exact ⟨fun _ => rfl, rfl⟩

end Sys2Proof.Machine

/-! # Break and halt: `brk` (44_break.md)

Every `brk` emits the dump; its selectors decide only what follows, the advance or the halt. Two bytes
of the fill decode to the `brk` that halts. -/

namespace Sys2Proof.Machine

/-! ## The events of an instruction (R35, R160) -/

/-- Both outcomes of a `brk` emit the registers as they were before it. -/
theorem Effect.dumps_brk {a b c : Nibble} {s t : State} (h : Effect (.brk a b c) s t) :
    t.dumps = s.dumps ++ [s.regs] := by
  cases h with
  | alu form => cases form
  | brkHalt | brkDump => rfl

/-- No other outcome emits an event. -/
theorem Effect.dumps_eq {i : Instr} {s t : State} (h : Effect i s t) (notBrk : ∀ a b c, i ≠ .brk a b c) :
    t.dumps = s.dumps := by
  cases h with
  | brkHalt | brkDump => exact absurd rfl (notBrk _ _ _)
  | _ => rfl

/-! ## Halt-self and the fill (R161, R233) -/

theorem exec_brk_halt (c : Nibble) (s : State) : exec (.brk 0xF 0xF c) s = .next s.emitDump.halt :=
  Effect.brkHalt.exec_eq

theorem decode_fillByte : decode fillByte fillByte = .brk 0xF 0xF 0xF := by decide

theorem State.current_of_fill {s : State} (byte0 : s.readByte s.pc = fillByte)
    (byte1 : s.readByte (s.pc + 1) = fillByte) : s.current = .brk 0xF 0xF 0xF := by
  have fetched : s.fetch = (fillByte, fillByte) := (s.memRead2_eq_iff _ _).mpr ⟨byte0, byte1⟩
  rw [State.current, fetched, decode_fillByte]

/-! ## The statements -/

/-- Settles O40. -/
theorem onlyBrkDumps : Obligations.OnlyBrkDumps := by
  intro i s t h
  have effect : Effect i s t := exec_eq_next_iff.mp h
  refine ⟨?_, effect.dumps_eq⟩
  rintro ⟨a, b, c, rfl⟩
  exact effect.dumps_brk

/-- Settles O53: the instruction fetched from the fill is halt-self. -/
theorem fillHalts : Obligations.FillHalts := by
  intro s running byte0 byte1
  rw [step_of_running running, State.current_of_fill byte0 byte1, exec_brk_halt]
  rfl

/-- Settles O35. -/
theorem brkDumpsAndAdvances : Obligations.BrkDumpsAndAdvances :=
  fun _ _ c s goesOn =>
    have effect := Effect.brkDump (c := c) (s := s) goesOn
    ⟨_, effect.exec_eq, effect.dumps_brk, (nextPc_eq s).symm, effect.sameRegsBut, fun _ => rfl, rfl, rfl, rfl⟩

/-- Settles O36. -/
theorem brkHaltSelf : Obligations.BrkHaltSelf :=
  fun c s =>
    have effect := Effect.brkHalt (c := c) (s := s)
    ⟨_, effect.exec_eq, rfl, effect.dumps_brk, rfl, effect.sameRegsBut, fun _ => rfl, rfl, rfl⟩

end Sys2Proof.Machine

/-! # Errors: their causes and their precision (60_exceptions.md)

`RaiseCause i s e` is the row of R200's table for the error `e`. An outcome either keeps err or is `State.raise` of an
error with its cause; the three statements are this fact, read for an instruction and for a step. -/

namespace Sys2Proof.Machine

/-- The situation in which the instruction `i` raises the error `e` in the state `s` (R200). -/
def RaiseCause (i : Instr) (s : State) : CoreError → Prop
  | .misalignedJump => ∃ a b c, i = .jeq a b c ∧ s.reg b = s.reg c ∧ (s.reg a).toNat % 2 = 1
  | .mismatchedJump => ∃ a b c, i = .jeq a b c ∧ s.reg b = s.reg c ∧ (s.reg a).toNat % 2 = 0 ∧
      s.memRead2 (s.reg a) ≠ encode i
  | .invalidSrrEncoding => ∃ a b ctl, i = .srr a b ctl ∧ 8 ≤ ctl.toNat

/-! ## What an outcome does to err -/

/-- An outcome that does not keep err raises an error that has its cause, and does nothing else (R200, R203). -/
theorem Effect.err_cases {i : Instr} {s t : State} (h : Effect i s t) :
    t.err = s.err ∨ ∃ e, RaiseCause i s e ∧ t = s.raise e := by
  cases h with
  | jeqMisaligned equal odd =>
    exact .inr ⟨.misalignedJump, ⟨_, _, _, rfl, equal, (isOdd_eq_true_iff _).mp odd⟩, rfl⟩
  | jeqMismatched equal even other =>
    exact .inr ⟨.mismatchedJump, ⟨_, _, _, rfl, equal, even_of_not_isOdd even, other⟩, rfl⟩
  | srrInvalid invalid => exact .inr ⟨.invalidSrrEncoding, ⟨_, _, _, rfl, invalid⟩, rfl⟩
  | alu | jeqNotTaken | jeqTaken | xri | srr | srm | brkHalt | brkDump => exact .inl rfl

/-- Without a cause, an outcome keeps err. -/
theorem Effect.err_eq {i : Instr} {s t : State} (h : Effect i s t) (noCause : ∀ e, ¬ RaiseCause i s e) :
    t.err = s.err :=
  h.err_cases.resolve_right fun ⟨e, cause, _⟩ => noCause e cause

/-- A step runs on a core without an error, so the error it ends with is one it raised. -/
theorem raised_of_step {s t : State} {e : CoreError} (h : step s = .next t) (err : t.err = some e) :
    RaiseCause s.current s e ∧ t = s.raise e := by
  obtain ⟨⟨noErr, -⟩, effect⟩ := effect_of_step h
  rcases effect.err_cases with same | ⟨raised, cause, rfl⟩
  · cases (same.trans noErr).symm.trans err
  · cases err
    exact ⟨cause, rfl⟩

/-! ## The statements -/

/-- Settles O42: the premises leave none of the three errors a cause, and every instruction has an outcome. -/
theorem nothingElseRaises : Obligations.NothingElseRaises := by
  refine ⟨fun byte0 byte1 => ⟨_, rfl, encode_decode byte0 byte1⟩, fun i s lands legal => ?_⟩
  obtain ⟨t, effect⟩ := effect_total i s
  refine ⟨t, effect.exec_eq, effect.err_eq ?_⟩
  rintro (_ | _ | _) cause
  case misalignedJump =>
    obtain ⟨a, b, c, rfl, equal, odd⟩ := cause
    obtain ⟨even, -⟩ := lands a b c rfl equal
    omega
  case mismatchedJump =>
    obtain ⟨a, b, c, rfl, equal, -, other⟩ := cause
    obtain ⟨-, twin⟩ := lands a b c rfl equal
    exact other twin
  case invalidSrrEncoding =>
    obtain ⟨a, b, ctl, rfl, invalid⟩ := cause
    exact Nat.not_lt.mpr invalid (legal a b ctl rfl)

/-- Settles O43: the bytes a `jeq` compares with, its encoding, are the bytes fetched. -/
theorem errorsHaveTheirCauses : Obligations.ErrorsHaveTheirCauses := by
  refine fun s t h => ⟨fun err => (raised_of_step h err).1, fun err => ?_, fun err => (raised_of_step h err).1⟩
  obtain ⟨cause, -⟩ := raised_of_step h err
  rwa [RaiseCause, s.encode_current] at cause

/-- Settles O44: the only outcome with an error is `State.raise`, which writes err alone. -/
theorem errorsArePrecise : Obligations.ErrorsArePrecise := by
  intro s t e h err
  obtain ⟨-, raised⟩ := raised_of_step h err
  exact raised

end Sys2Proof.Machine

/-! # Reset, image load and the host interface (70_reset_and_hazards.md)

What an image load does to a byte is an induction over the image: the write of its first byte is read back, because the
writes after it go to higher addresses only. A repair is an operation of Machine/Ops.lean, and its laws are that
operation's laws. -/

namespace Sys2Proof.Machine

/-! ## A step of a Running core (R255) -/

/-- A Running core's step is an outcome of the instruction at pc, and every instruction has one. -/
theorem exists_step_of_running {s : State} (running : s.Running) : ∃ t, step s = .next t := by
  obtain ⟨t, effect⟩ := effect_total s.current s
  exact ⟨t, (step_of_running running).trans effect.exec_eq⟩

/-! ## Bytes written one after another (R232) -/

/-- A byte below or above the range written is kept. -/
theorem Memory.readAt_writeBytes_outside {m : Memory} {a x : Nat} {vs : List Byte}
    (outside : x < a ∨ a + vs.length ≤ x) : (m.writeBytes a vs).readAt x = m.readAt x := by
  induction vs generalizing m a with
  | nil => rfl
  | cons v vs ih =>
    rw [List.length_cons] at outside
    calc ((m.writeAt a v).writeBytes (a + 1) vs).readAt x
      _ = (m.writeAt a v).readAt x := ih (by omega)
      _ = m.readAt x := m.readAt_writeAt_ne v (by omega)

/-- A byte inside the range written is the one of the list. -/
theorem Memory.readAt_writeBytes_inside {m : Memory} {a i : Nat} {vs : List Byte} (wf : m.wf = true)
    (fits : a + vs.length ≤ 65536) (inside : i < vs.length) : (m.writeBytes a vs).readAt (a + i) = vs[i] := by
  induction vs generalizing m a i with
  | nil => exact absurd inside (Nat.not_lt_zero i)
  | cons v vs ih =>
    rw [List.length_cons] at fits
    cases i with
    | zero =>
      calc ((m.writeAt a v).writeBytes (a + 1) vs).readAt a
        _ = (m.writeAt a v).readAt a := Memory.readAt_writeBytes_outside (.inl a.lt_succ_self)
        _ = v := Memory.readAt_writeAt_same a v wf
    | succ i =>
      have wfHead : (m.writeAt a v).wf = true := Memory.wf_writeAt v wf (by omega)
      have insideTail : i < vs.length := Nat.lt_of_succ_lt_succ inside
      calc ((m.writeAt a v).writeBytes (a + 1) vs).readAt (a + (i + 1))
        _ = ((m.writeAt a v).writeBytes (a + 1) vs).readAt (a + 1 + i) := by rw [Nat.add_right_comm, Nat.add_assoc]
        _ = vs[i] := ih wfHead (by omega) insideTail

/-! ## Image load (R232, D30) -/

theorem loadImage_of_le {image : List Byte} (s : State) (fits : image.length ≤ 65535) :
    loadImage image s = .next { s with mem := s.mem.writeBytes 0 image } :=
  if_pos fits

theorem loadImage_of_gt {image : List Byte} (s : State) (long : 65535 < image.length) :
    loadImage image s = .refused .imageTooLong :=
  if_neg (Nat.not_le.mpr long)

/-! ## Repairs (R243) -/

theorem State.writesOnly_setReg (s : State) (r : Reg) (v : Word) : WritesOnly [r] s (s.setReg r v) :=
  ⟨fun _ other => s.reg_setReg_ne v (List.mem_singleton.not.mp other), ⟨rfl, rfl, rfl, rfl⟩, fun _ => rfl⟩

theorem repairErr_of_not_terminated {s : State} (e : CoreError) (alive : s.engine ≠ .terminated) :
    repairErr (some e) s = s.setErr (some e) :=
  if_neg alive

theorem repairErr_of_terminated {s : State} (e : CoreError) (terminated : s.engine = .terminated) :
    repairErr (some e) s = s :=
  if_pos terminated

/-- A core that did not halt is Running once err is cleared. -/
theorem State.running_clearErr {s : State} (notHalted : s.halted = false) : s.clearErr.Running :=
  ⟨s.clearErr_err, notHalted⟩

/-- err is not read by the fetch. -/
theorem State.current_clearErr (s : State) : s.clearErr.current = s.current := rfl

/-! ## The statements -/

/-- Settles O8. -/
theorem runningStepCompletes : Obligations.RunningStepCompletes :=
  fun _ => exists_step_of_running

/-- Settles O54: the load writes the image's bytes in a row from address 0 and no other field. -/
theorem imageLoad : Obligations.ImageLoad := by
  refine fun image s wf => ⟨fun fits => ?_, loadImage_of_gt s⟩
  refine ⟨_, loadImage_of_le s fits, fun x inside => ?_, fun x outside => ?_, fun _ _ => rfl,
    ⟨rfl, rfl, rfl, rfl⟩, rfl⟩
  · have loaded := Memory.readAt_writeBytes_inside wf (a := 0) (by omega) inside
    rwa [Nat.zero_add] at loaded
  · exact Memory.readAt_writeBytes_outside (.inr (by rwa [Nat.zero_add]))

/-- Settles O52: one law of `State.reset` per element. -/
theorem resetValues : Obligations.ResetValues :=
  ⟨State.reg_reset, State.reset_pc, congrArg dirValue State.reset_dir, State.reset_err, State.reset_halted,
    State.readByte_reset, State.reset_dumps, fun _ => rfl⟩

/-- Settles O58: the repair is `State.clearErr`, which leaves a Running core with the same instruction at pc. -/
theorem repairResumes : Obligations.RepairResumes := by
  intro s e _ notHalted
  have running : (repair (.err none) s).Running := s.running_clearErr notHalted
  refine ⟨State.engine_running.mpr running, ?_⟩
  calc step (repair (.err none) s)
    _ = exec s.clearErr.current s.clearErr := step_of_running running
    _ = exec s.current { s with err := none } := by rw [s.current_clearErr]; rfl

/-- Settles O59: SET_DIR and the repairs of pc and dir are the field's write by definition; the others are the laws of
`repairErr`, `State.setReg` and `State.writeByte`. -/
theorem hostWritesAreExact : Obligations.HostWritesAreExact := by
  refine fun s => ⟨fun _ => rfl, fun _ => rfl, fun _ => rfl, rfl, fun e => repairErr_of_not_terminated e,
    fun e => repairErr_of_terminated e, fun r v => ?register, fun a v wf => ?byte⟩
  case register => exact ⟨s.reg_setReg_same r v, s.writesOnly_setReg r v, s.setReg_pc r v⟩
  case byte =>
    exact ⟨State.readByte_writeByte_same a v wf, fun x => s.readByte_writeByte_ne v, fun q _ => s.reg_writeByte a v q,
      ⟨rfl, rfl, rfl, rfl⟩, s.writeByte_pc a v⟩

end Sys2Proof.Machine

/-! # The canonical form of memory under the host's actions (log 14)

Of the host's actions, only an image load, a step and a repair of a byte write memory, and RESET empties it. The limit on
an image's length (R232, D30) is what keeps a load within the addresses of the canonical form. -/

namespace Sys2Proof.Machine

/-- A load that is not refused wrote an image within the limit (R232, D30). -/
theorem loadImage_next_inv {image : List Byte} {s t : State} (h : loadImage image s = .next t) :
    image.length ≤ 65535 ∧ t = { s with mem := s.mem.writeBytes 0 image } := by
  refine ⟨Nat.le_of_not_lt fun long => ?_, loadImage_next h⟩
  rw [loadImage_of_gt s long] at h
  cases h

theorem loadImage_mem_wf {image : List Byte} {s t : State} (wf : s.mem.wf = true) (h : loadImage image s = .next t) :
    t.mem.wf = true := by
  obtain ⟨fits, rfl⟩ := loadImage_next_inv h
  exact Memory.wf_writeBytes wf (by omega)

theorem stepRequest_mem_wf {s : State} (wf : s.mem.wf = true) : (stepRequest s).mem.wf = true := by
  rcases stepRequest_spec s with stepped | same
  · obtain ⟨-, effect⟩ := effect_of_step stepped
    exact effect.mem_wf wf
  · rwa [same]

/-- Only the repair of a byte writes memory (R243). -/
theorem repair_mem_wf (w : RepairWrite) {s : State} (wf : s.mem.wf = true) : (repair w s).mem.wf = true := by
  cases w with
  | mem a v => exact State.wf_writeByte a v wf
  | err e =>
    obtain ⟨-, -, -, -, mem, -⟩ := repairErr_frame e s
    exact (congrArg Memory.wf mem).trans wf
  | reg | pc | dir => exact wf

/-- Settles O57, action by action. -/
theorem hostActionsKeepMemoryForm : Obligations.HostActionsKeepMemoryForm := by
  intro act s t wf h
  cases act with
  | load image => exact loadImage_mem_wf wf h
  | reset => cases h; exact State.wf_reset
  | step => cases h; exact stepRequest_mem_wf wf
  | repair w => cases h; exact repair_mem_wf w wf
  | setDir | read => cases h; exact wf

end Sys2Proof.Machine
